-- ==== Sys2Proof/Word.lean ====
section
/-! DEFINITION. The word sizes of the block: bytes of the buffer, 16-bit fields and registers, 32-bit registers and
command words. Bit 0 is the least significant bit everywhere (00_scope.md R7). -/

namespace Sys2Proof

/-- One byte of the packet buffer (10_state.md R42) or the TTL register (R28). -/
abbrev Byte := BitVec 8

/-- A 16-bit register or header field. -/
abbrev Half := BitVec 16

/-- A 32-bit register, or the value a register transaction moves (20_memory.md R68). -/
abbrev Word := BitVec 32

end Sys2Proof
end

