-- ==== Sys2Proof/Config.lean ====
section
/-! DEFINITION. What is fixed for the life of one block: the parameters of 00_scope.md R5, the constants of R6, and the
one free value of the spec, the unspecified content of the buffer after a reset (10_state.md R44). -/

namespace Sys2Proof

namespace Config

/-- The IPv4 header has 20 bytes (00_scope.md R6). -/
def ipHdrBytes : Nat := 20

/-- The UDP header has 8 bytes (00_scope.md R6). -/
def udpHdrBytes : Nat := 8

/-- Both headers (00_scope.md R6, derived there: 20 + 8). -/
def hdrBytes : Nat := 28

/-- The IP version field (00_scope.md R6). -/
def version : Nat := 4

/-- The header length in 32-bit words (00_scope.md R6). -/
def ihl : Nat := 5

/-- The DSCP/ECN byte (00_scope.md R6). -/
def dscpEcn : Nat := 0

/-- The 16-bit flags and fragment-offset field (00_scope.md R6). -/
def flagsFrag : Nat := 0

/-- The protocol number of UDP (00_scope.md R6). -/
def protocol : Nat := 17

/-- FREE VALUE. The byte that address `a` of the buffer holds in the `k`-th unspecified content, that is the content
the power-on reset (`k = 0`) or a later Reset or SRST leaves (10_state.md R44, 70_reset_and_hazards.md R241,
93_implementation_defined.md U6: "any value"). It has no body, so no proof can depend on which byte it is. -/
opaque freeByte (k a : Nat) : Byte

end Config

/-- The three parameters of one block (00_scope.md R5). The bound 28 <= BUF_BYTES <= 65535 is carried by the type:
`pmax` is PMAX = BUF_BYTES - 28, and BASE, a multiple of 0x20000 (20_memory.md R61), is held as the multiple. -/
structure Params where
  /-- PMAX, the largest payload length: BUF_BYTES - 28, so 0 to 65507. -/
  pmax : Fin 65508
  /-- UDP_PSEUDO: does the UDP checksum include the pseudo-header? -/
  udpPseudo : Bool
  /-- BASE / 0x20000. -/
  slot : Nat
  deriving DecidableEq, Repr

namespace Params

/-- BUF_BYTES, the number of bytes of the packet buffer. -/
def bufBytes (p : Params) : Nat := Config.hdrBytes + p.pmax.val

/-- BASE, the bus address of the block. -/
def base (p : Params) : Nat := 0x20000 * p.slot

/-- The values the spec recommends and uses in its test vectors: BUF_BYTES = 65535 and UDP_PSEUDO = 0 (00_scope.md R5),
BASE = 0 (95_test_vectors.md). -/
def recommended : Params := { pmax := 65507, udpPseudo := false, slot := 0 }

end Params

end Sys2Proof
end

