-- ==== Sys2Proof/Syntax.lean ====
section
/-! DEFINITION. The commands of the block: one constructor per row of the opcode map (30_encoding.md R91). No command
carries an operand (R94), so no constructor has an argument. -/

namespace Sys2Proof

inductive Instr where
  /-- Do nothing (43_system_commands.md R200). -/
  | nop
  /-- Checksum of a buffer range into RESULT (40_checksum_engine.md R138). -/
  | csum
  /-- Zero the buffer and open a packet (41_header_serialiser.md R150). -/
  | clr
  /-- Serialise both headers (41_header_serialiser.md R151). -/
  | hdr
  /-- The UDP checksum pass (42_checksum_passes.md R180). -/
  | udpck
  /-- The IPv4 header checksum pass, which seals (42_checksum_passes.md R182). -/
  | ipck
  /-- HDR, UDPCK and IPCK as one command (42_checksum_passes.md R183). -/
  | pkt
  /-- Soft reset (43_system_commands.md R201). -/
  | srst
  deriving DecidableEq, Repr

end Sys2Proof
end

