-- ==== Sys2Proof/WellFormed.lean ====
section
/-! DEFINITION. What is well formed. A command has no operand field (30_encoding.md R94), so every `Instr` is. The numbers
a platform fixes for a block are checked against 00_scope.md R5 and 20_memory.md R61. -/

namespace Sys2Proof

/-- Every command is well formed: there is no field that could hold a bad value (30_encoding.md R90, R94). -/
def Instr.wellFormed : Instr → Bool
  | .nop => true
  | .csum => true
  | .clr => true
  | .hdr => true
  | .udpck => true
  | .ipck => true
  | .pkt => true
  | .srst => true

/-- The parameters as the spec writes them, three numbers, checked one by one: 28 <= BUF_BYTES <= 65535, UDP_PSEUDO 0
or 1 (00_scope.md R5), BASE a multiple of 0x20000 (20_memory.md R61). -/
def Params.ofNumbers (bufBytes udpPseudo base : Nat) : Option Params :=
  if bufBytes < Config.hdrBytes then none
  else if h : bufBytes - Config.hdrBytes < 65508 then
    if 1 < udpPseudo then none
    else if base % 0x20000 ≠ 0 then none
    else some { pmax := ⟨bufBytes - Config.hdrBytes, h⟩, udpPseudo := udpPseudo == 1, slot := base / 0x20000 }
  else none

end Sys2Proof
end

