-- ==== Sys2Proof/Decode.lean ====
section
/-! DEFINITION. Decoding and encoding of command words (30_encoding.md R90 to R93). -/

namespace Sys2Proof

/-- Why a word is no command (30_encoding.md R92). Both reasons raise E_OPCODE. -/
inductive Reject where
  /-- Bits [31:8] are not all zero. -/
  | upperBitsSet
  /-- The opcode is one of the reserved values 0x08 to 0xFF. -/
  | reservedOpcode
  deriving DecidableEq, Repr

/-- Field `op`, bits [7:0] (30_encoding.md R90). -/
def opField (w : Word) : BitVec 8 := w.extractLsb' 0 8

/-- Field `zero`, bits [31:8] (30_encoding.md R90). -/
def zeroField (w : Word) : BitVec 24 := w.extractLsb' 8 24

/-- The command that an opcode names (30_encoding.md R91). -/
def decodeOp (op : BitVec 8) : Option Instr :=
  match op.toNat with
  | 0x00 => some .nop
  | 0x01 => some .csum
  | 0x02 => some .clr
  | 0x03 => some .hdr
  | 0x04 => some .udpck
  | 0x05 => some .ipck
  | 0x06 => some .pkt
  | 0x07 => some .srst
  | _ => none

/-- Decoding of a whole command word, total on all 2^32 values (30_encoding.md R92). -/
def decode (w : Word) : Except Reject Instr :=
  if zeroField w ≠ 0 then .error .upperBitsSet
  else match decodeOp (opField w) with
    | some i => .ok i
    | none => .error .reservedOpcode

/-- The opcode of a command (30_encoding.md R91). -/
def opcode : Instr → BitVec 8
  | .nop => 0x00
  | .csum => 0x01
  | .clr => 0x02
  | .hdr => 0x03
  | .udpck => 0x04
  | .ipck => 0x05
  | .pkt => 0x06
  | .srst => 0x07

/-- The word of a command: 24 zero bits above the opcode (30_encoding.md R90). -/
def encode (i : Instr) : Word := (0 : BitVec 24) ++ opcode i

/-- The host's reading of one opcode-table row: the number `w` of `nbits` bits, bits above them 0, as a command word.
A command travels as a number on the data bus, so no byte order is involved (20_memory.md R61), and it is 32 bits long
whatever it is (30_encoding.md R90). -/
def decodeTableWord (nbits w : Nat) : Option Instr :=
  match decode (BitVec.ofNat 32 (w % 2 ^ nbits)) with
  | .ok i => some i
  | .error _ => none

end Sys2Proof
end

