-- ==== Sys2Proof/Machine/State.lean ====
section
/-! DEFINITION. The state of the block (10_state.md R20) as plain data, with the types it is made of, and the state right
after reset (R44). -/

namespace Sys2Proof.Machine

/-- PHASE, the lifecycle of the packet (10_state.md R32). Its code 3 is never produced and has no constructor
(93_implementation_defined.md U12). -/
inductive Phase where
  /-- 0: the buffer has not been zeroed since reset. -/
  | uninit
  /-- 1, OPEN: the buffer may be written. -/
  | opened
  /-- 2, SEALED: the last checksum pass is done. -/
  | sealed
  deriving DecidableEq, Repr

/-- The seven error codes (60_exceptions.md R211). Codes 8 to 15 are never produced and have no constructor
(93_implementation_defined.md U12). -/
inductive ErrCode where
  /-- 1, E_OPCODE: the word is not one of the eight commands (R212). -/
  | opcode
  /-- 2, E_UNINIT: the buffer has not been zeroed (R213). -/
  | uninit
  /-- 3, E_SEALED: the packet may no longer change (R214). -/
  | sealed
  /-- 4, E_LEN: PAYLOAD_LEN > PMAX (R215). -/
  | len
  /-- 5, E_RANGE: an address outside the buffer (R216). -/
  | range
  /-- 6, E_ACCESS: the register is read-only or reserved (R217). -/
  | access
  /-- 7, E_WIDTH: the value does not fit the register (R218). -/
  | width
  deriving DecidableEq, Repr

/-- The fourteen registers (10_state.md R21), under their own names. -/
inductive Reg where
  | cmd | status | result | udpCsum | ipCsum | ckOff | ckLen | srcAddr | dstAddr | srcPort | dstPort | ttl | ident
  | payloadLen
  deriving DecidableEq, Repr

/-- What the bytes of the buffer that nothing has written hold. -/
inductive Fill where
  /-- Zero: a CLR has run since the last reset (41_header_serialiser.md R150). -/
  | zeroed
  /-- The `k`-th unspecified content (10_state.md R44): each byte is the free value `Config.freeByte k a`. -/
  | unspecified (k : Nat)
  deriving DecidableEq, Repr

/-- The packet buffer BUF (10_state.md R42): what unlisted bytes hold, and the listed ones as (address, byte) pairs in
the canonical form `Memory.wf` of `Machine/Ops.lean`. -/
structure Memory where
  fill : Fill
  cells : List Host.Cell
  deriving DecidableEq, Repr

/-- A transaction, the only thing the host can do to the block (20_memory.md R60). A register number has 14 bits
(0 to 16383), a buffer address 16 bits (0 to 65535). -/
inductive Txn where
  | reset
  | regRead (n : BitVec 14)
  | regWrite (n : BitVec 14) (v : Word)
  | bufRead (a : BitVec 16)
  | bufWrite (a : BitVec 16) (b : Byte)
  deriving DecidableEq, Repr

/-- A value a transaction returns (20_memory.md R60): 32 bits from RegRead, 8 bits from BufRead. -/
inductive Response where
  | word (v : Word)
  | byte (b : Byte)
  deriving DecidableEq, Repr

/-- Everything the spec gives the block (10_state.md R20), the parameters it is built with (00_scope.md R5), and the two
sides of the host interface. CMD holds nothing (R34) and STATUS is a view of `phase` and `err` (R35), so neither has a
field; the accumulator is not state (R40). -/
structure State where
  /-- BUF_BYTES, UDP_PSEUDO, BASE: no step writes them (70_reset_and_hazards.md R241). -/
  params : Params
  /-- RESULT (R36). -/
  result : Half
  /-- UDP_CSUM (R37). -/
  udpCsum : Half
  /-- IP_CSUM (R38). -/
  ipCsum : Half
  /-- CK_OFF (R22). -/
  ckOff : Half
  /-- CK_LEN (R23). -/
  ckLen : Half
  /-- SRC_ADDR (R24). -/
  srcAddr : Word
  /-- DST_ADDR (R25). -/
  dstAddr : Word
  /-- SRC_PORT (R26). -/
  srcPort : Half
  /-- DST_PORT (R27). -/
  dstPort : Half
  /-- TTL (R28). -/
  ttl : Byte
  /-- IDENT (R29). -/
  ident : Half
  /-- PAYLOAD_LEN (R30). -/
  payloadLen : Half
  /-- PHASE (R32). -/
  phase : Phase
  /-- ERR (R33); `none` is code 0, no error since the last reset. -/
  err : Option ErrCode
  /-- BUF (R42). -/
  buf : Memory
  /-- MODEL: which unspecified content the next Reset or SRST leaves in BUF (log entry 4). -/
  fresh : Nat
  /-- MODEL: the transactions the host has issued and the block has not accepted, oldest first (log entry 1). -/
  pending : List Txn
  /-- MODEL: the values returned to the host, newest first (log entry 2). -/
  returned : List Response
  deriving DecidableEq, Repr

/-- Why the machine stops: never. An operation that cannot be performed records an error code in ERR and the machine
goes on (60_exceptions.md R210), and no command or transaction hangs (70_reset_and_hazards.md R254), so this type has
no constructor. -/
inductive Fault where
  deriving DecidableEq, Repr

/-- Why something has no meaning. -/
inductive Refusal where
  /-- Raised by a still refused arm of `exec`; there is none. Safe. -/
  | notModelled (mnemonic : String)
  /-- Raised by `issue` (`Machine/Bus.lean`) for a bus access of a width the region does not define, or a 32-bit access
  not aligned to 4: "not a transaction of this block ... a model refuses it" (20_memory.md R61,
  93_implementation_defined.md U9). Safe. -/
  | unsupportedAccess
  /-- Raised by `issue` for a bus address outside the block's 0x20000 bytes, which "are the platform's"
  (20_memory.md R71). Safe. -/
  | outsideBlock
  deriving DecidableEq, Repr

/-- The state right after reset (10_state.md R44), for a block with the recommended parameters (00_scope.md R5): every
register 0, PHASE = UNINIT, ERR = 0, the buffer unspecified, and a host that has issued nothing yet. -/
def State.reset : State where
  params := Params.recommended
  result := 0
  udpCsum := 0
  ipCsum := 0
  ckOff := 0
  ckLen := 0
  srcAddr := 0
  dstAddr := 0
  srcPort := 0
  dstPort := 0
  ttl := 0
  ident := 0
  payloadLen := 0
  phase := .uninit
  err := none
  buf := { fill := .unspecified 0, cells := [] }
  fresh := 1
  pending := []
  returned := []

end Sys2Proof.Machine
end

