-- ==== Sys2Proof/Machine/Ops.lean ====
section
/-! DEFINITION. The operations every meaning is built from: one byte of the buffer, the big-endian primitives MemRead and
MemWrite (00_scope.md R8), taking an error (60_exceptions.md R219) and the way back from one, the reset (R222). -/

namespace Sys2Proof.Machine

/-- What byte `a` holds if nothing has been written to it: the ONE definition of an unlisted address. Zero after a CLR
(41_header_serialiser.md R150); after a reset unspecified (10_state.md R44), hence a free value. -/
def background : Fill → Nat → Byte
  | .zeroed, _ => 0
  | .unspecified k, a => Config.freeByte k a

/-- The byte listed for address `a`, if one is. -/
def lookupCell : List Host.Cell → Nat → Option Byte
  | [], _ => none
  | (x, b) :: rest, a => if x = a then some b else lookupCell rest a

/-- List byte `b` at address `a`, before the first higher address. -/
def insertCell (a : Nat) (b : Byte) : List Host.Cell → List Host.Cell
  | [] => [(a, b)]
  | (x, y) :: rest => if a < x then (a, b) :: (x, y) :: rest else (x, y) :: insertCell a b rest

/-- The list with address `a` holding `b`: its old entry goes, and a new one is listed unless `b` is what the unlisted
address reads as (`bg`). -/
def putCell (bg : Byte) (cells : List Host.Cell) (a : Nat) (b : Byte) : List Host.Cell :=
  if b = bg then cells.filter (fun c => c.1 != a) else insertCell a b (cells.filter (fun c => c.1 != a))

/-- The canonical form of a buffer: addresses strictly rising, no entry equal to what the unlisted address reads as. -/
abbrev Memory.wf (m : Memory) : Prop :=
  m.cells.Pairwise (fun c d => c.1 < d.1) ∧ ∀ c ∈ m.cells, c.2 ≠ background m.fill c.1

/-- `BUF[a]` (00_scope.md R8). -/
def Memory.read (m : Memory) (a : Nat) : Byte := (lookupCell m.cells a).getD (background m.fill a)

/-- `BUF[a] <- b` (00_scope.md R8). -/
def Memory.write (m : Memory) (a : Nat) (b : Byte) : Memory :=
  { m with cells := putCell (background m.fill a) m.cells a b }

/-- `MemRead(a, n)`: the `n` bytes from `a` up as one big-endian number (00_scope.md R8, 20_memory.md R66). -/
def Memory.memRead (m : Memory) (a : Nat) : Nat → Nat
  | 0 => 0
  | n + 1 => m.memRead a n * 256 + (m.read (a + n)).toNat

/-- `MemWrite(a, n, v)`: the `n` bytes of `v`, the most significant at the lowest address (00_scope.md R8). -/
def Memory.memWrite (m : Memory) (a : Nat) : Nat → Nat → Memory
  | 0, _ => m
  | n + 1, v => (m.memWrite a n (v / 256)).write (a + n) (BitVec.ofNat 8 v)

/-- The buffer a CLR leaves: every byte zero (41_header_serialiser.md R150). -/
def Memory.cleared : Memory := { fill := .zeroed, cells := [] }

/-- `raise E_X` (60_exceptions.md R219): ERR takes the code, nothing else changes, and the transaction ends. Nothing is
saved and no control is transferred. It is reached only when ERR = 0. -/
def raiseError (e : ErrCode) (s : State) : Host.Outcome State Fault Refusal :=
  .next { s with err := some e }

/-- The way back from an error, and the effect of the transaction Reset and of the command SRST: every piece of state
takes its reset value (10_state.md R44, 43_system_commands.md R201, 60_exceptions.md R222, 70_reset_and_hazards.md R240).
The buffer becomes unspecified anew, and the parameters stay (R241). What the host has still to be given, and what it
has been given already, is not the block's and stays. -/
def resetBlock (s : State) : State :=
  { State.reset with
    params := s.params
    buf := { fill := .unspecified s.fresh, cells := [] }
    fresh := s.fresh + 1
    pending := s.pending
    returned := s.returned }

end Sys2Proof.Machine
end

