-- ==== Sys2Proof/Machine/Flags.lean ====
section
/-! DEFINITION. The status fields PHASE and ERR: their codes, the word STATUS (10_state.md R32, R33, R35), and the checks
on them that commands share (60_exceptions.md R213, R214, R220, R221). -/

namespace Sys2Proof.Machine

/-- The code of a phase, STATUS[1:0] (10_state.md R32). -/
def phaseCode : Phase → BitVec 2
  | .uninit => 0
  | .opened => 1
  | .sealed => 2

/-- The code of an error (60_exceptions.md R211). -/
def errCode : ErrCode → BitVec 4
  | .opcode => 1
  | .uninit => 2
  | .sealed => 3
  | .len => 4
  | .range => 5
  | .access => 6
  | .width => 7

/-- The four bits ERR, STATUS[11:8] (10_state.md R33). -/
def errField : Option ErrCode → BitVec 4
  | none => 0
  | some e => errCode e

/-- The value STATUS reads as: bits [31:12] zero, [11:8] ERR, [7:2] zero, [1:0] PHASE (10_state.md R35). -/
def statusWord (s : State) : Word :=
  ((0 : BitVec 20) ++ errField s.err) ++ ((0 : BitVec 6) ++ phaseCode s.phase)

/-- The faulted condition, ERR != 0 (60_exceptions.md R221). -/
def faulted (s : State) : Bool := s.err.isSome

/-- A command on a faulted block is ignored: no change of state at all (60_exceptions.md R221). -/
def unlessFaulted (s : State) (k : Host.Outcome State Fault Refusal) : Host.Outcome State Fault Refusal :=
  if faulted s then .next s else k

/-- The phase check of CSUM: E_UNINIT in UNINIT (60_exceptions.md R213). -/
def needCleared (s : State) (k : Host.Outcome State Fault Refusal) : Host.Outcome State Fault Refusal :=
  match s.phase with
  | .uninit => raiseError .uninit s
  | .opened => k
  | .sealed => k

/-- The phase check of whatever changes the buffer: E_UNINIT in UNINIT (60_exceptions.md R213), E_SEALED in SEALED
(R214). -/
def needOpen (s : State) (k : Host.Outcome State Fault Refusal) : Host.Outcome State Fault Refusal :=
  match s.phase with
  | .uninit => raiseError .uninit s
  | .sealed => raiseError .sealed s
  | .opened => k

end Sys2Proof.Machine
end

