-- ==== Sys2Proof/Machine/Operands.lean ====
section
/-! DEFINITION. The register file (10_state.md R21, 20_memory.md R62, R63) and the operands that commands take from it
(30_encoding.md R94, 41_header_serialiser.md R152). -/

namespace Sys2Proof.Machine

/-- The register with a given number; the numbers 14 to 16383 are reserved (10_state.md R21, R39). -/
def regOfNumber (n : BitVec 14) : Option Reg :=
  match n.toNat with
  | 0 => some .cmd
  | 1 => some .status
  | 2 => some .result
  | 3 => some .udpCsum
  | 4 => some .ipCsum
  | 5 => some .ckOff
  | 6 => some .ckLen
  | 7 => some .srcAddr
  | 8 => some .dstAddr
  | 9 => some .srcPort
  | 10 => some .dstPort
  | 11 => some .ttl
  | 12 => some .ident
  | 13 => some .payloadLen
  | _ => none

/-- The number of a register (10_state.md R21). -/
def regNumber : Reg → BitVec 14
  | .cmd => 0
  | .status => 1
  | .result => 2
  | .udpCsum => 3
  | .ipCsum => 4
  | .ckOff => 5
  | .ckLen => 6
  | .srcAddr => 7
  | .dstAddr => 8
  | .srcPort => 9
  | .dstPort => 10
  | .ttl => 11
  | .ident => 12
  | .payloadLen => 13

/-- The architectural width of a register (10_state.md R21). -/
def regWidth : Reg → Nat
  | .cmd => 32
  | .status => 32
  | .result => 16
  | .udpCsum => 16
  | .ipCsum => 16
  | .ckOff => 16
  | .ckLen => 16
  | .srcAddr => 32
  | .dstAddr => 32
  | .srcPort => 16
  | .dstPort => 16
  | .ttl => 8
  | .ident => 16
  | .payloadLen => 16

/-- May the host write the register as storage? The class RW of 10_state.md R21. CMD is write-only and executes. -/
def regWritable : Reg → Bool
  | .cmd => false
  | .status => false
  | .result => false
  | .udpCsum => false
  | .ipCsum => false
  | .ckOff => true
  | .ckLen => true
  | .srcAddr => true
  | .dstAddr => true
  | .srcPort => true
  | .dstPort => true
  | .ttl => true
  | .ident => true
  | .payloadLen => true

/-- `x[n]` (00_scope.md R8): the value of a register, zero-extended to 32 bits. CMD reads 0 (10_state.md R34) and STATUS
reads its two fields (R35). -/
def readReg (s : State) : Reg → Word
  | .cmd => 0
  | .status => statusWord s
  | .result => s.result.zeroExtend 32
  | .udpCsum => s.udpCsum.zeroExtend 32
  | .ipCsum => s.ipCsum.zeroExtend 32
  | .ckOff => s.ckOff.zeroExtend 32
  | .ckLen => s.ckLen.zeroExtend 32
  | .srcAddr => s.srcAddr
  | .dstAddr => s.dstAddr
  | .srcPort => s.srcPort.zeroExtend 32
  | .dstPort => s.dstPort.zeroExtend 32
  | .ttl => s.ttl.zeroExtend 32
  | .ident => s.ident.zeroExtend 32
  | .payloadLen => s.payloadLen.zeroExtend 32

/-- `x[n] <- v` for a value that fits (20_memory.md R63): the low bits of `v`. The registers that a host cannot write as
storage keep their value. -/
def writeReg (s : State) (v : Word) : Reg → State
  | .cmd => s
  | .status => s
  | .result => s
  | .udpCsum => s
  | .ipCsum => s
  | .ckOff => { s with ckOff := v.setWidth 16 }
  | .ckLen => { s with ckLen := v.setWidth 16 }
  | .srcAddr => { s with srcAddr := v }
  | .dstAddr => { s with dstAddr := v }
  | .srcPort => { s with srcPort := v.setWidth 16 }
  | .dstPort => { s with dstPort := v.setWidth 16 }
  | .ttl => { s with ttl := v.setWidth 8 }
  | .ident => { s with ident := v.setWidth 16 }
  | .payloadLen => { s with payloadLen := v.setWidth 16 }

/-- P, the payload length a command works with (10_state.md R30). -/
def payload (s : State) : Nat := s.payloadLen.toNat

/-- TL, the IPv4 total length of a packet with `p` payload bytes (41_header_serialiser.md R152). -/
def totalLength (p : Nat) : Nat := 28 + p

/-- UL, the UDP length (41_header_serialiser.md R152). -/
def udpLength (p : Nat) : Nat := 8 + p

/-- The length check of HDR, UDPCK and PKT: E_LEN when P > PMAX (60_exceptions.md R215). -/
def needFits (s : State) (k : Host.Outcome State Fault Refusal) : Host.Outcome State Fault Refusal :=
  if payload s > s.params.pmax.val then raiseError .len s else k

end Sys2Proof.Machine
end

