-- ==== Sys2Proof/Machine/Checksum.lean ====
section
/-! DEFINITION. The checksum engine: WordSum, Fold, Checksum (40_checksum_engine.md R130 to R132) and the command CSUM
(R138). Sums are exact: ACC never wraps (R133), so they are natural numbers. -/

namespace Sys2Proof.Machine

/-- The sum of the first `k` big-endian 16-bit words from address `a` up: the loop of 40_checksum_engine.md R130. -/
def pairSum (m : Memory) (a : Nat) : Nat → Nat
  | 0 => 0
  | k + 1 => pairSum m a k + m.memRead (a + 2 * k) 2

/-- `WordSum(a, L)` (40_checksum_engine.md R130): an odd last byte is the HIGH byte of a zero-padded word. -/
def wordSum (m : Memory) (a len : Nat) : Nat :=
  pairSum m a (len / 2) + (if len % 2 = 1 then (m.read (a + len - 1)).toNat * 256 else 0)

/-- The loop of 40_checksum_engine.md R131, `while s[31:16] != 0: s <- s[15:0] + s[31:16]`, with a bound on its rounds. -/
def foldLoop : Nat → Nat → Nat
  | 0, s => s
  | fuel + 1, s => if s / 65536 = 0 then s else foldLoop fuel (s % 65536 + s / 65536)

/-- `Fold(s)` (40_checksum_engine.md R131). Every round makes `s` smaller (R134), so `s` rounds are always enough: the
bound never ends the loop. -/
def fold (s : Nat) : Nat := foldLoop s s

/-- `Checksum(a, L, e)` (40_checksum_engine.md R132): the 16-bit complement of the folded sum. -/
def checksum (m : Memory) (a len e : Nat) : Half := ~~~ (BitVec.ofNat 16 (fold (wordSum m a len + e)))

/-- The range check of CSUM: E_RANGE when CK_OFF + CK_LEN > BUF_BYTES, without wrap (60_exceptions.md R216). -/
def needInRange (s : State) (k : Host.Outcome State Fault Refusal) : Host.Outcome State Fault Refusal :=
  if s.ckOff.toNat + s.ckLen.toNat > s.params.bufBytes then raiseError .range s else k

/-- CSUM (40_checksum_engine.md R138). -/
def execCsum (s : State) : Host.Outcome State Fault Refusal :=
  unlessFaulted s (needCleared s (needInRange s
    (.next { s with result := checksum s.buf s.ckOff.toNat s.ckLen.toNat 0 })))

end Sys2Proof.Machine
end

