-- ==== Sys2Proof/Machine/Serialiser.lean ====
section
/-! DEFINITION. The header serialiser: SerialiseHeaders and the commands CLR and HDR (41_header_serialiser.md R150 to
R153). -/

namespace Sys2Proof.Machine

/-- CLR (41_header_serialiser.md R150): every byte of BUF zero, PHASE <- OPEN. Legal in every phase. -/
def execClr (s : State) : Host.Outcome State Fault Refusal :=
  unlessFaulted s (.next { s with buf := Memory.cleared, phase := .opened })

/-- The byte 0 of the packet, composed by shift and mask (30_encoding.md R97). -/
def versionIhl : Nat := ((Config.version &&& 0xF) <<< 4) ||| (Config.ihl &&& 0xF)

/-- The IPv4 part of `SerialiseHeaders(P)`: BUF[0] to BUF[19] (41_header_serialiser.md R153, 30_encoding.md R96). -/
def ipHeader (s : State) (p : Nat) (m : Memory) : Memory :=
  (((((((((m.memWrite 0 1 versionIhl).memWrite 1 1 Config.dscpEcn).memWrite 2 2 (totalLength p)).memWrite 4 2
    s.ident.toNat).memWrite 6 2 Config.flagsFrag).memWrite 8 1 s.ttl.toNat).memWrite 9 1 Config.protocol).memWrite 10 2
    0x0000).memWrite 12 4 s.srcAddr.toNat).memWrite 16 4 s.dstAddr.toNat

/-- The UDP part of `SerialiseHeaders(P)`: BUF[20] to BUF[27] (41_header_serialiser.md R153, 30_encoding.md R98). -/
def udpHeader (s : State) (p : Nat) (m : Memory) : Memory :=
  (((m.memWrite 20 2 s.srcPort.toNat).memWrite 22 2 s.dstPort.toNat).memWrite 24 2 (udpLength p)).memWrite 26 2 0x0000

/-- `SerialiseHeaders(P)` (41_header_serialiser.md R153). -/
def serialiseHeaders (p : Nat) (s : State) : State :=
  { s with buf := udpHeader s p (ipHeader s p s.buf) }

/-- HDR (41_header_serialiser.md R151). -/
def execHdr (s : State) : Host.Outcome State Fault Refusal :=
  unlessFaulted s (needOpen s (needFits s (.next (serialiseHeaders (payload s) s))))

end Sys2Proof.Machine
end

