-- ==== Sys2Proof/Machine/Passes.lean ====
section
/-! DEFINITION. The checksum passes: UDPCK, IPCK and PKT (42_checksum_passes.md R180 to R183). -/

namespace Sys2Proof.Machine

/-- `PseudoSum(P)` (42_checksum_passes.md R181, 30_encoding.md R103): 0, or the six words of the pseudo-header, taken
from the registers. -/
def pseudoSum (p : Nat) (s : State) : Nat :=
  if s.params.udpPseudo then
    (s.srcAddr.extractLsb' 16 16).toNat + (s.srcAddr.extractLsb' 0 16).toNat
      + (s.dstAddr.extractLsb' 16 16).toNat + (s.dstAddr.extractLsb' 0 16).toNat
      + Config.protocol + udpLength p
  else 0

/-- The UDP checksum of the packet in the buffer: the field is zero while the UDP portion is summed
(42_checksum_passes.md R180). -/
def udpChecksum (p : Nat) (s : State) : Half :=
  checksum (s.buf.memWrite 26 2 0x0000) 20 (udpLength p) (pseudoSum p s)

/-- `UdpPass(P)` (42_checksum_passes.md R180). -/
def udpPass (p : Nat) (s : State) : State :=
  { s with
    buf := (s.buf.memWrite 26 2 0x0000).memWrite 26 2 (udpChecksum p s).toNat
    udpCsum := udpChecksum p s }

/-- The IPv4 header checksum of the packet in the buffer: the field is zero while the 20 bytes are summed
(42_checksum_passes.md R182). -/
def ipChecksum (s : State) : Half := checksum (s.buf.memWrite 10 2 0x0000) 0 20 0

/-- `IpPass()` (42_checksum_passes.md R182). -/
def ipPass (s : State) : State :=
  { s with
    buf := (s.buf.memWrite 10 2 0x0000).memWrite 10 2 (ipChecksum s).toNat
    ipCsum := ipChecksum s }

/-- `PHASE <- SEALED` (42_checksum_passes.md R186). -/
def sealPacket (s : State) : State := { s with phase := .sealed }

/-- UDPCK (42_checksum_passes.md R180). -/
def execUdpck (s : State) : Host.Outcome State Fault Refusal :=
  unlessFaulted s (needOpen s (needFits s (.next (udpPass (payload s) s))))

/-- IPCK (42_checksum_passes.md R182): no length check, and it seals. -/
def execIpck (s : State) : Host.Outcome State Fault Refusal :=
  unlessFaulted s (needOpen s (.next (sealPacket (ipPass s))))

/-- PKT (42_checksum_passes.md R183): every check before the first write, then the three steps, then the seal. -/
def execPkt (s : State) : Host.Outcome State Fault Refusal :=
  unlessFaulted s (needOpen s (needFits s
    (.next (sealPacket (ipPass (udpPass (payload s) (serialiseHeaders (payload s) s)))))))

end Sys2Proof.Machine
end

