-- ==== Sys2Proof/Machine/System.lean ====
section
/-! DEFINITION. The system commands NOP and SRST (43_system_commands.md R200, R201). -/

namespace Sys2Proof.Machine

/-- NOP (43_system_commands.md R200): no change of state, in any phase, faulted or not. -/
def execNop (s : State) : Host.Outcome State Fault Refusal := .next s

/-- SRST (43_system_commands.md R201): every piece of state takes its reset value. It is the only command that executes
on a faulted block. -/
def execSrst (s : State) : Host.Outcome State Fault Refusal := .next (resetBlock s)

end Sys2Proof.Machine
end

