-- ==== Sys2Proof/Machine/Dispatch.lean ====
section
/-! DEFINITION. One command to its meaning: one arm per constructor of `Instr` (30_encoding.md R91). -/

namespace Sys2Proof.Machine

def exec (i : Instr) (s : State) : Host.Outcome State Fault Refusal :=
  match i with
  | .nop => Sys2Proof.Machine.execNop s
  | .csum => Sys2Proof.Machine.execCsum s
  | .clr => Sys2Proof.Machine.execClr s
  | .hdr => Sys2Proof.Machine.execHdr s
  | .udpck => Sys2Proof.Machine.execUdpck s
  | .ipck => Sys2Proof.Machine.execIpck s
  | .pkt => Sys2Proof.Machine.execPkt s
  | .srst => Sys2Proof.Machine.execSrst s

end Sys2Proof.Machine
end

