-- ==== Sys2Proof/Machine/Transactions.lean ====
section
/-! DEFINITION. The five transactions of the host (20_memory.md R60, R62 to R65) and the execution of a command word that
a register write delivers (30_encoding.md R92). -/

namespace Sys2Proof.Machine

/-- `Execute(v)` (30_encoding.md R92): the decoded command, or E_OPCODE. -/
def execute (v : Word) (s : State) : Host.Outcome State Fault Refusal :=
  match decode v with
  | .ok i => exec i s
  | .error _ => raiseError .opcode s

/-- `RegRead(n)` (20_memory.md R62): reserved numbers read 0. -/
def regRead (n : BitVec 14) (s : State) : Word :=
  match regOfNumber n with
  | some r => readReg s r
  | none => 0

/-- A write of `v` to register `r` of a block that is not faulted: CMD executes, a writable register takes a value that
fits, and everything else is an error (20_memory.md R63, 60_exceptions.md R217, R218). -/
def regStore (r : Reg) (v : Word) (s : State) : Host.Outcome State Fault Refusal :=
  if r = .cmd then execute v s
  else if regWritable r then
    (if v.toNat ≥ 2 ^ regWidth r then raiseError .width s else .next (writeReg s v r))
  else raiseError .access s

/-- `RegWrite(n, v)` (20_memory.md R63): on a faulted block only the exact word 7 to CMD does anything. -/
def regWrite (n : BitVec 14) (v : Word) (s : State) : Host.Outcome State Fault Refusal :=
  if faulted s then (if n = 0 ∧ v = 0x00000007 then exec .srst s else .next s)
  else match regOfNumber n with
    | some r => regStore r v s
    | none => raiseError .access s

/-- `BufRead(a)` (20_memory.md R64): gated to 0 in UNINIT and outside the buffer. -/
def bufRead (a : BitVec 16) (s : State) : Byte :=
  if s.phase = .uninit ∨ a.toNat ≥ s.params.bufBytes then 0x00 else s.buf.read a.toNat

/-- `BufWrite(a, b)` (20_memory.md R65): ignored when faulted, then the phase check, then E_RANGE. -/
def bufWrite (a : BitVec 16) (b : Byte) (s : State) : Host.Outcome State Fault Refusal :=
  unlessFaulted s (needOpen s
    (if a.toNat ≥ s.params.bufBytes then raiseError .range s
     else .next { s with buf := s.buf.write a.toNat b }))

/-- The value a read returns goes to the host; nothing else changes (20_memory.md R70). -/
def respond (r : Response) (s : State) : Host.Outcome State Fault Refusal :=
  .next { s with returned := r :: s.returned }

/-- One whole transaction, the command it may carry included (20_memory.md R69). -/
def transact (t : Txn) (s : State) : Host.Outcome State Fault Refusal :=
  match t with
  | .reset => .next (resetBlock s)
  | .regRead n => respond (.word (regRead n s)) s
  | .regWrite n v => regWrite n v s
  | .bufRead a => respond (.byte (bufRead a s)) s
  | .bufWrite a b => bufWrite a b s

/-- The transaction that delivers the command word `w` (30_encoding.md R90). -/
def commandWrite (w : Word) : Txn := .regWrite 0 w

end Sys2Proof.Machine
end

