-- ==== Sys2Proof/Machine/Step.lean ====
section
/-! DEFINITION. One step: the block accepts the oldest transaction the host has issued and performs all of it
(20_memory.md R60, R69, R72). -/

namespace Sys2Proof.Machine

/-- The block never steps on its own (20_memory.md R60): with nothing pending it holds its state unchanged
(60_exceptions.md R227, H6). -/
def step (s : State) : Host.Outcome State Fault Refusal :=
  match s.pending with
  | [] => .next s
  | t :: rest => transact t { s with pending := rest }

/-- `s` with the instruction `w` where the next step takes it: a command is the data of one write to CMD and is fetched
from nowhere (10_state.md R31), so it stands as the oldest pending transaction. -/
def State.withFetchWord (s : State) (nbits w : Nat) : State :=
  { s with pending := commandWrite (BitVec.ofNat 32 (w % 2 ^ nbits)) :: s.pending }

end Sys2Proof.Machine
end

