-- ==== Sys2Proof/Machine/Bus.lean ====
section
/-! DEFINITION. Placement on a platform (20_memory.md R61, R71, 30_encoding.md R104): which bus access is which
transaction. This is the platform's side and no step of the block. -/

namespace Sys2Proof.Machine

/-- What a platform can present to the block: the reset signal, and reads and writes of 8, 16 or 32 bits at a bus
address (20_memory.md R61). -/
inductive Access where
  | resetSignal
  | read8 (addr : Nat)
  | read16 (addr : Nat)
  | read32 (addr : Nat)
  | write8 (addr : Nat) (v : Byte)
  | write16 (addr : Nat) (v : Half)
  | write32 (addr : Nat) (v : Word)
  deriving DecidableEq, Repr

/-- What lies at a bus address. -/
inductive Place where
  /-- The aligned address of register `n`. -/
  | register (n : BitVec 14)
  /-- An address in the register region that is not a multiple of 4. -/
  | misaligned
  /-- The address of buffer byte `a`. -/
  | bufferByte (a : BitVec 16)
  /-- Outside the 0x20000 bytes of the block. -/
  | elsewhere
  deriving DecidableEq, Repr

/-- The address map (20_memory.md R71): registers at BASE + 4n, the buffer window at BASE + 0x10000 + a. -/
def placeOf (p : Params) (addr : Nat) : Place :=
  if addr < p.base then .elsewhere
  else if addr - p.base < 0x10000 then
    (if (addr - p.base) % 4 = 0 then .register (BitVec.ofNat 14 ((addr - p.base) / 4)) else .misaligned)
  else if addr - p.base < 0x20000 then .bufferByte (BitVec.ofNat 16 (addr - p.base - 0x10000))
  else .elsewhere

/-- The transaction a 32-bit access is: `k n` for register `n`; in the buffer window or misaligned it is none. -/
def wordAccess (pl : Place) (k : BitVec 14 → Txn) : Except Refusal Txn :=
  match pl with
  | .register n => .ok (k n)
  | .misaligned => .error .unsupportedAccess
  | .bufferByte _ => .error .unsupportedAccess
  | .elsewhere => .error .outsideBlock

/-- The transaction an 8-bit access is: `k a` for buffer byte `a`; in the register region it is none. -/
def byteAccess (pl : Place) (k : BitVec 16 → Txn) : Except Refusal Txn :=
  match pl with
  | .register _ => .error .unsupportedAccess
  | .misaligned => .error .unsupportedAccess
  | .bufferByte a => .ok (k a)
  | .elsewhere => .error .outsideBlock

/-- A 16-bit access is never a transaction of the block (20_memory.md R61). -/
def halfAccess (pl : Place) : Except Refusal Txn :=
  match pl with
  | .register _ => .error .unsupportedAccess
  | .misaligned => .error .unsupportedAccess
  | .bufferByte _ => .error .unsupportedAccess
  | .elsewhere => .error .outsideBlock

/-- The transaction that a bus access is, or why it is none (20_memory.md R61). -/
def decodeAccess (p : Params) : Access → Except Refusal Txn
  | .resetSignal => .ok .reset
  | .read8 a => byteAccess (placeOf p a) .bufRead
  | .read16 a => halfAccess (placeOf p a)
  | .read32 a => wordAccess (placeOf p a) .regRead
  | .write8 a v => byteAccess (placeOf p a) (fun n => .bufWrite n v)
  | .write16 a _ => halfAccess (placeOf p a)
  | .write32 a v => wordAccess (placeOf p a) (fun n => .regWrite n v)

/-- The host issues a bus access: it joins the transactions the block has still to accept, or is refused by name. -/
def issue (acc : Access) (s : State) : Host.Outcome State Fault Refusal :=
  match decodeAccess s.params acc with
  | .ok t => .next { s with pending := s.pending ++ [t] }
  | .error r => .refused r

end Sys2Proof.Machine
end

