-- ==== Sys2Proof/Machine/Script.lean ====
section
/-! DEFINITION. The spec's notation for sequences of transactions (30_encoding.md R104, R105) and the boot order
(70_reset_and_hazards.md R243). -/

namespace Sys2Proof.Machine

/-- The register value of the address `a.b.c.d` (30_encoding.md R102). -/
def dottedQuad (a b c d : Byte) : Word := ((a ++ b) ++ c) ++ d

/-- `cmd M` (30_encoding.md R105). -/
def lineCmd (i : Instr) : Txn := commandWrite (encode i)

/-- `wr NAME, value` (30_encoding.md R104). -/
def lineWr (r : Reg) (v : Word) : Txn := .regWrite (regNumber r) v

/-- `rd NAME` (30_encoding.md R104). -/
def lineRd (r : Reg) : Txn := .regRead (regNumber r)

/-- `load addr, b0 b1 ... bk` (30_encoding.md R105); `none` where an address is above 65535 and so names no
transaction (20_memory.md R60). -/
def lineLoad (a : Nat) : List Byte → Option (List Txn)
  | [] => some []
  | b :: rest =>
    if a < 65536 then (lineLoad (a + 1) rest).map (fun ts => .bufWrite (BitVec.ofNat 16 a) b :: ts) else none

/-- `loads addr, "text"` (30_encoding.md R105): the ASCII codes of the characters. -/
def lineLoads (a : Nat) (text : List Char) : Option (List Txn) :=
  lineLoad a (text.map (fun c => BitVec.ofNat 8 c.toNat))

/-- `sum off, len` (30_encoding.md R105). -/
def lineSum (off len : Word) : List Txn :=
  [lineWr .ckOff off, lineWr .ckLen len, lineCmd .csum, lineRd .result]

/-- `dump a, b` (30_encoding.md R105) as `n` reads from `a` up, `n = b - a + 1`; `none` where an address is above 65535. -/
def lineDump (a : Nat) : Nat → Option (List Txn)
  | 0 => some []
  | n + 1 => if a < 65536 then (lineDump (a + 1) n).map (fun ts => .bufRead (BitVec.ofNat 16 a) :: ts) else none

/-- Steps 1 to 5 of the boot order (70_reset_and_hazards.md R243), with the payload length the number of payload bytes;
`none` where the payload does not fit the buffer addresses. -/
def bootOrder (srcAddr dstAddr : Word) (srcPort dstPort : Half) (ttl : Byte) (ident : Half) (bytes : List Byte) :
    Option (List Txn) :=
  (lineLoad 28 bytes).map fun loads =>
    [lineCmd .clr, lineWr .srcAddr srcAddr, lineWr .dstAddr dstAddr, lineWr .srcPort (srcPort.zeroExtend 32),
      lineWr .dstPort (dstPort.zeroExtend 32), lineWr .ttl (ttl.zeroExtend 32), lineWr .ident (ident.zeroExtend 32),
      lineWr .payloadLen (BitVec.ofNat 32 bytes.length)] ++ loads ++ [lineCmd .pkt, lineRd .status]

end Sys2Proof.Machine
end

