-- ==== Sys2Proof/Safety.lean ====
section
/-! DEFINITION. What counts as a safe state and a finished packet, and the other formulations of the checksum that the
spec compares with its own: the terms that statements about the block use. -/

namespace Sys2Proof.Machine

/-- The invariant of every run: what the phase says about the buffer (10_state.md R32, 41_header_serialiser.md R159), no
byte listed outside the buffer (30_encoding.md R100), and what a sealed packet verifies to (42_checksum_passes.md R186,
R187). -/
structure State.Inv (s : State) : Prop where
  /-- The buffer is in canonical form. -/
  canonical : s.buf.wf
  /-- No byte outside the buffer is ever written. -/
  inBuffer : ∀ c ∈ s.buf.cells, c.1 < s.params.bufBytes
  /-- Before the first CLR nothing has been written since the reset. -/
  untouched : s.phase = .uninit → s.buf.cells = []
  /-- From CLR on, every byte is a zero of CLR's or a written byte: nothing of the unspecified content is left. -/
  defined : s.phase ≠ .uninit → s.buf.fill = .zeroed
  /-- The header of a sealed packet sums to zero with its checksum in place. -/
  headerVerifies : s.phase = .sealed → checksum s.buf 0 20 0 = 0
  /-- IP_CSUM is the checksum in the header of a sealed packet. -/
  reported : s.phase = .sealed → s.buf.memRead 10 2 = s.ipCsum.toNat

/-- `t` is what a reset of `s` leaves, row by row of the table of 10_state.md R44: every register 0, PHASE = UNINIT,
ERR = 0, STATUS and CMD read as 0, every byte of the buffer unspecified, that is a free value (log entry 4). The
parameters stay (70_reset_and_hazards.md R241). What the host has yet to issue and has received is not the block's and
stays, which no rule says (log entry 13). -/
structure ResetFrom (s t : State) : Prop where
  phase : t.phase = .uninit
  err : t.err = none
  status : regRead 1 t = 0x00000000
  result : t.result = 0x0000
  udpCsum : t.udpCsum = 0x0000
  ipCsum : t.ipCsum = 0x0000
  ckOff : t.ckOff = 0x0000
  ckLen : t.ckLen = 0x0000
  srcAddr : t.srcAddr = 0x00000000
  dstAddr : t.dstAddr = 0x00000000
  srcPort : t.srcPort = 0x0000
  dstPort : t.dstPort = 0x0000
  ttl : t.ttl = 0x00
  ident : t.ident = 0x0000
  payloadLen : t.payloadLen = 0x0000
  buf : ∃ k, ∀ a, t.buf.read a = Config.freeByte k a
  cmd : regRead 0 t = 0
  params : t.params = s.params
  pending : t.pending = s.pending
  returned : t.returned = s.returned

/-- A packet is finished: PHASE = SEALED and ERR = 0 (70_reset_and_hazards.md R244). -/
def State.finished (s : State) : Prop := s.phase = .sealed ∧ s.err = none

/-- The first `n` bytes of the buffer, in address order. -/
def Memory.bytes (m : Memory) (n : Nat) : List Byte := (List.range n).map m.read

/-- The packet: BUF[0] to BUF[27+P] (30_encoding.md R95, R100). -/
def State.packet (s : State) : List Byte := s.buf.bytes (totalLength (payload s))

/-- The 28 header bytes with both checksum fields given, byte by byte as the tables of 30_encoding.md R96 and R98 list
them. -/
def headerImage (s : State) (ipCk udpCk : Half) : List Byte :=
  let tl : Half := BitVec.ofNat 16 (28 + s.payloadLen.toNat)
  let ul : Half := BitVec.ofNat 16 (8 + s.payloadLen.toNat)
  [0x45, 0x00, tl.extractLsb' 8 8, tl.extractLsb' 0 8,
   s.ident.extractLsb' 8 8, s.ident.extractLsb' 0 8, 0x00, 0x00,
   s.ttl, 0x11, ipCk.extractLsb' 8 8, ipCk.extractLsb' 0 8,
   s.srcAddr.extractLsb' 24 8, s.srcAddr.extractLsb' 16 8, s.srcAddr.extractLsb' 8 8, s.srcAddr.extractLsb' 0 8,
   s.dstAddr.extractLsb' 24 8, s.dstAddr.extractLsb' 16 8, s.dstAddr.extractLsb' 8 8, s.dstAddr.extractLsb' 0 8,
   s.srcPort.extractLsb' 8 8, s.srcPort.extractLsb' 0 8, s.dstPort.extractLsb' 8 8, s.dstPort.extractLsb' 0 8,
   ul.extractLsb' 8 8, ul.extractLsb' 0 8, udpCk.extractLsb' 8 8, udpCk.extractLsb' 0 8]

/-- Two outcomes one after the other, as two transactions of the host are. -/
def andThen (o : Host.Outcome State Fault Refusal) (k : State → Host.Outcome State Fault Refusal) :
    Host.Outcome State Fault Refusal :=
  match o with
  | .next s => k s
  | .fault r => .fault r
  | .refused r => .refused r

/-- The width of register `n` as 20_memory.md R63 lists it: 32 for 7 and 8, 8 for 11, 16 for the other seven of 5 to
13. -/
def widthOfNumber (n : Nat) : Nat := if n = 7 ∨ n = 8 then 32 else if n = 11 then 8 else 16

/-- The value of STATUS (10_state.md R35): `(ERR << 8) | PHASE`, with the codes of R32 and 60_exceptions.md R211 written
out. -/
def statusNumber (s : State) : Nat :=
  (match s.err with
    | none => 0
    | some .opcode => 1
    | some .uninit => 2
    | some .sealed => 3
    | some .len => 4
    | some .range => 5
    | some .access => 6
    | some .width => 7) * 256 +
  (match s.phase with
    | .uninit => 0
    | .opened => 1
    | .sealed => 2)

/-- The addend of the UDP pass as 42_checksum_passes.md R181 words it, on the register values as numbers. -/
def pseudoWords (s : State) : Nat :=
  if s.params.udpPseudo then
    s.srcAddr.toNat / 65536 + s.srcAddr.toNat % 65536 + s.dstAddr.toNat / 65536 + s.dstAddr.toNat % 65536 + 0x0011 +
      (8 + s.payloadLen.toNat)
  else 0

/-- The phase a command or its error leads to, cell by cell of the transition table of 10_state.md R32: a new phase or
the error raised for the phase. -/
def phaseTable : Instr → Phase → Except ErrCode Phase
  | .nop, p => .ok p
  | .csum, .uninit => .error .uninit
  | .csum, p => .ok p
  | .clr, _ => .ok .opened
  | .hdr, .uninit => .error .uninit
  | .hdr, .opened => .ok .opened
  | .hdr, .sealed => .error .sealed
  | .udpck, .uninit => .error .uninit
  | .udpck, .opened => .ok .opened
  | .udpck, .sealed => .error .sealed
  | .ipck, .uninit => .error .uninit
  | .ipck, .opened => .ok .sealed
  | .ipck, .sealed => .error .sealed
  | .pkt, .uninit => .error .uninit
  | .pkt, .opened => .ok .sealed
  | .pkt, .sealed => .error .sealed
  | .srst, _ => .ok .uninit

/-- The accumulator ACC as a register of 32 bits (10_state.md R40) run through the loop of 40_checksum_engine.md R130. -/
def accPairs (m : Memory) (a : Nat) : Nat → Word
  | 0 => 0
  | k + 1 => accPairs m a k + ((m.read (a + 2 * k) ++ m.read (a + 2 * k + 1)).zeroExtend 32)

/-- ACC at the end of a summation (40_checksum_engine.md R130). -/
def accSum (m : Memory) (a len : Nat) : Word :=
  if len % 2 = 1 then accPairs m a (len / 2) + (m.read (a + len - 1)).zeroExtend 32 <<< 8 else accPairs m a (len / 2)

/-- One addition with end-around carry: `t = A + w`, then `A <- t[15:0] + t[16]` (40_checksum_engine.md R135). -/
def endAroundAdd (acc w : Half) : Half :=
  let t : BitVec 17 := acc.zeroExtend 17 + w.zeroExtend 17
  t.extractLsb' 0 16 + (t.extractLsb' 16 1).zeroExtend 16

/-- The words of a range one by one in a 16-bit end-around-carry accumulator (40_checksum_engine.md R135). -/
def endAroundPairs (m : Memory) (a : Nat) : Nat → Half
  | 0 => 0
  | k + 1 => endAroundAdd (endAroundPairs m a k) (m.read (a + 2 * k) ++ m.read (a + 2 * k + 1))

/-- The 16-bit accumulator at the end of a summation (40_checksum_engine.md R135). -/
def endAroundSum (m : Memory) (a len : Nat) : Half :=
  if len % 2 = 1 then endAroundAdd (endAroundPairs m a (len / 2)) (m.read (a + len - 1) ++ (0 : Byte))
  else endAroundPairs m a (len / 2)

/-- How many rounds the loop of Fold runs (40_checksum_engine.md R131, R134). -/
def foldRounds : Nat → Nat → Nat
  | 0, _ => 0
  | fuel + 1, s => if s / 65536 = 0 then 0 else foldRounds fuel (s % 65536 + s / 65536) + 1

/-- The defective unit of 40_checksum_engine.md R136: one addition and a truncation. -/
def singleFoldChecksum (s : Nat) : Half := ~~~ (BitVec.ofNat 16 (s % 65536 + s / 65536))

/-- `bytes` written from address `a` up. -/
def Memory.load (m : Memory) (a : Nat) : List Byte → Memory
  | [] => m
  | b :: rest => (m.write a b).load (a + 1) rest

/-- A row of the table of 40_checksum_engine.md R141: with `bytes` written from address 0 up into a zeroed buffer, the
WordSum is `w`, the last value of the Fold trace is `f` and the Checksum is `c`. -/
def CornerCase (bytes : List Byte) (w f : Nat) (c : Half) : Prop :=
  wordSum (Memory.cleared.load 0 bytes) 0 bytes.length = w ∧ fold w = f ∧
    checksum (Memory.cleared.load 0 bytes) 0 bytes.length 0 = c

/-- A transaction that does something on a faulted block: Reset, the two reads, and the exact word 7 to CMD
(60_exceptions.md R221, 20_memory.md R63). -/
def worksWhenFaulted : Txn → Bool
  | .reset => true
  | .regRead _ => true
  | .bufRead _ => true
  | .regWrite n v => n == 0 && v == 0x00000007
  | .bufWrite _ _ => false

end Sys2Proof.Machine
end

