-- ==== Sys2Proof/Certificates/Slice0/Obligations.lean ====
section
/-! DEFINITION. The statements about the block. Each docstring says which rule of the spec it formalises. -/

open Sys2Proof Sys2Proof.Machine

/-! ## Reset -/

/-- 10_state.md R44: the state right after reset has every value the table gives, the buffer's bytes free values. -/
def Obligations.ResetStateHasTheTabledValues : Prop := ResetFrom State.reset State.reset

/-- 70_reset_and_hazards.md R240: Reset puts every piece of state at its reset value, in any phase, faulted or not, with
any transaction still to come, as SRST does, and leaves the parameters (R241). That what the host has pending and has
received survives it is the model's (log entry 13). -/
def Obligations.ResetTransactionResets : Prop :=
  ∀ (s : State) (rest : List Txn), s.pending = .reset :: rest →
    ∃ t, step s = .next t ∧ ResetFrom { s with pending := rest } t ∧ exec .srst { s with pending := rest } = .next t

/-- 43_system_commands.md R201: SRST answers the reset state from every state, has the effect of Reset, is the word 7,
and on a faulted block is the only word that does anything. It leaves the parameters (70_reset_and_hazards.md R241). That
what the host has pending and has received survives it is the model's (log entry 13). -/
def Obligations.SoftResetResets : Prop :=
  decode 0x00000007 = .ok .srst ∧
  (∀ s : State, ∃ t, exec .srst s = .next t ∧ ResetFrom s t ∧ transact .reset s = .next t) ∧
  (∀ (s : State) (e : ErrCode) (v : Word), s.err = some e →
    regWrite 0 v s = if v = 0x00000007 then exec .srst s else .next s)

/-! ## Encoding -/

/-- 30_encoding.md R91: the eight words written out bit by bit, and the illegal words of 95_test_vectors.md V58 to V63. -/
def Obligations.OpcodeMapWordsDecode : Prop :=
  decode 0b00000000000000000000000000000000 = .ok .nop ∧
  decode 0b00000000000000000000000000000001 = .ok .csum ∧
  decode 0b00000000000000000000000000000010 = .ok .clr ∧
  decode 0b00000000000000000000000000000011 = .ok .hdr ∧
  decode 0b00000000000000000000000000000100 = .ok .udpck ∧
  decode 0b00000000000000000000000000000101 = .ok .ipck ∧
  decode 0b00000000000000000000000000000110 = .ok .pkt ∧
  decode 0b00000000000000000000000000000111 = .ok .srst ∧
  decode 0x00000008 = .error .reservedOpcode ∧ decode 0x000000FF = .error .reservedOpcode ∧
  decode 0x00000100 = .error .upperBitsSet ∧ decode 0x00000107 = .error .upperBitsSet ∧
  decode 0x80000001 = .error .upperBitsSet ∧ decode 0xFFFFFFFF = .error .upperBitsSet

/-- 30_encoding.md R90 to R92: decoding and encoding agree both ways, and exactly the eight values 0 to 7 of the 2^32 are
commands. -/
def Obligations.DecodeAndEncodeAgree : Prop :=
  (∀ i : Instr, i.wellFormed = true → decode (encode i) = .ok i) ∧
  (∀ (w : Word) (i : Instr), decode w = .ok i → w = encode i) ∧
  (∀ w : Word, (∃ i, decode w = .ok i) ↔ w.toNat < 8)

/-! ## Steps -/

/-- 20_memory.md R69, 30_encoding.md R92: a step that accepts a write of a command word to CMD, on a block that is not
faulted, is the whole command, run on the state less that transaction; so it is for the host's placed word. -/
def Obligations.StepRunsTheDecodedCommand : Prop :=
  (∀ (s : State) (v : Word) (rest : List Txn) (i : Instr), s.err = none → s.pending = .regWrite 0 v :: rest →
    decode v = .ok i → step s = exec i { s with pending := rest }) ∧
  (∀ (s : State) (v : Word) (i : Instr), s.err = none → decode v = .ok i →
    step (s.withFetchWord 32 v.toNat) = exec i s)

/-- 60_exceptions.md R212: E_OPCODE, code 1, for a word with bits [31:8] not zero or an opcode above 7; nothing is
executed. -/
def Obligations.IllegalWordRaisesOpcodeError : Prop :=
  (errField (some .opcode) = 1) ∧
  ∀ (s : State) (v : Word) (rest : List Txn), s.err = none → s.pending = .regWrite 0 v :: rest →
    (v.extractLsb' 8 24 ≠ 0 ∨ 0x08 ≤ (v.extractLsb' 0 8).toNat) →
    step s = .next { s with pending := rest, err := some .opcode }

/-- The model's choice (log entry 5) for "the block never steps on its own" (20_memory.md R60): with nothing pending the
state stays as it is. -/
def Obligations.IdleBlockHoldsItsState : Prop :=
  ∀ s : State, s.pending = [] → step s = .next s

/-- 70_reset_and_hazards.md R254: no transaction can hang; in every state a step ends in a next state, having consumed
exactly the oldest transaction. -/
def Obligations.EveryTransactionEnds : Prop :=
  ∀ s : State, ∃ t, step s = .next t ∧ t.pending = s.pending.tail

/-- 70_reset_and_hazards.md R241: no step, a reset included, changes BUF_BYTES, UDP_PSEUDO or BASE. -/
def Obligations.ParametersAreFixed : Prop :=
  ∀ s t : State, step s = .next t → t.params = s.params

/-! ## Register and buffer transactions -/

/-- 10_state.md R35: the layout of STATUS, its reset value, and the refusal of a write to it. -/
def Obligations.StatusWordLayout : Prop :=
  (∀ s : State, (regRead 1 s).extractLsb' 0 2 = phaseCode s.phase ∧ (regRead 1 s).extractLsb' 2 6 = 0 ∧
    (regRead 1 s).extractLsb' 8 4 = errField s.err ∧ (regRead 1 s).extractLsb' 12 20 = 0 ∧
    (regRead 1 s).toNat = statusNumber s) ∧
  regRead 1 State.reset = 0x00000000 ∧
  (∀ (s : State) (v : Word), s.err = none → transact (.regWrite 1 v) s = .next { s with err := some .access })

/-- 20_memory.md R62: what RegRead returns, register by register, in every state, with no change of the block. -/
def Obligations.RegReadReturnsTheRegister : Prop :=
  ∀ (s : State) (n : BitVec 14) (rest : List Txn), s.pending = .regRead n :: rest →
    ∃ v : Word, step s = .next { s with pending := rest, returned := .word v :: s.returned } ∧
      (n = 0 → v = 0) ∧ (n = 1 → v.toNat = statusNumber s) ∧
      (n = 2 → v.toNat = s.result.toNat) ∧ (n = 3 → v.toNat = s.udpCsum.toNat) ∧ (n = 4 → v.toNat = s.ipCsum.toNat) ∧
      (n = 5 → v.toNat = s.ckOff.toNat) ∧ (n = 6 → v.toNat = s.ckLen.toNat) ∧
      (n = 7 → v = s.srcAddr) ∧ (n = 8 → v = s.dstAddr) ∧
      (n = 9 → v.toNat = s.srcPort.toNat) ∧ (n = 10 → v.toNat = s.dstPort.toNat) ∧
      (n = 11 → v.toNat = s.ttl.toNat) ∧ (n = 12 → v.toNat = s.ident.toNat) ∧
      (n = 13 → v.toNat = s.payloadLen.toNat) ∧ (14 ≤ n.toNat → v = 0)

/-- 20_memory.md R63: RegWrite, line by line. A value that fits is stored in every phase, SEALED included, and nothing
else of the block changes. -/
def Obligations.RegWriteStoresOrRefuses : Prop :=
  ∀ (s : State) (n : BitVec 14) (v : Word) (rest : List Txn), s.pending = .regWrite n v :: rest →
    (s.err ≠ none → n = 0 → v = 0x00000007 → step s = exec .srst { s with pending := rest }) ∧
    (s.err ≠ none → ¬ (n = 0 ∧ v = 0x00000007) → step s = .next { s with pending := rest }) ∧
    (s.err = none → n = 0 → step s = execute v { s with pending := rest }) ∧
    (s.err = none → (1 ≤ n.toNat ∧ n.toNat ≤ 4 ∨ 14 ≤ n.toNat) →
      step s = .next { s with pending := rest, err := some .access }) ∧
    (s.err = none → 5 ≤ n.toNat → n.toNat ≤ 13 → 2 ^ widthOfNumber n.toNat ≤ v.toNat →
      step s = .next { s with pending := rest, err := some .width }) ∧
    (s.err = none → 5 ≤ n.toNat → n.toNat ≤ 13 → v.toNat < 2 ^ widthOfNumber n.toNat →
      ∃ t, step s = .next t ∧ regRead n t = v ∧ (∀ m : BitVec 14, m ≠ n → regRead m t = regRead m s) ∧
        t.phase = s.phase ∧ t.err = none ∧ t.buf = s.buf ∧ t.fresh = s.fresh ∧ t.params = s.params ∧ t.pending = rest ∧
        t.returned = s.returned)

/-- 20_memory.md R64: what BufRead returns, in every state, with no change of the block. -/
def Obligations.BufReadReturnsTheByteOrZero : Prop :=
  ∀ (s : State) (a : BitVec 16) (rest : List Txn), s.pending = .bufRead a :: rest →
    ((s.phase = .uninit ∨ s.params.bufBytes ≤ a.toNat) →
      step s = .next { s with pending := rest, returned := .byte 0x00 :: s.returned }) ∧
    (s.phase ≠ .uninit → a.toNat < s.params.bufBytes →
      step s = .next { s with pending := rest, returned := .byte (s.buf.read a.toNat) :: s.returned })

/-- 20_memory.md R65: BufWrite, line by line; a write that is accepted changes that one byte and nothing else. -/
def Obligations.BufWriteStoresOneByteOrRefuses : Prop :=
  ∀ (s : State) (a : BitVec 16) (b : Byte) (rest : List Txn), s.pending = .bufWrite a b :: rest →
    (s.err ≠ none → step s = .next { s with pending := rest }) ∧
    (s.err = none → s.phase = .uninit → step s = .next { s with pending := rest, err := some .uninit }) ∧
    (s.err = none → s.phase = .sealed → step s = .next { s with pending := rest, err := some .sealed }) ∧
    (s.err = none → s.phase = .opened → s.params.bufBytes ≤ a.toNat →
      step s = .next { s with pending := rest, err := some .range }) ∧
    (s.err = none → s.phase = .opened → a.toNat < s.params.bufBytes →
      ∃ m : Memory, step s = .next { s with pending := rest, buf := m } ∧ m.read a.toNat = b ∧
        ∀ x, x ≠ a.toNat → m.read x = s.buf.read x)

/-! ## Errors -/

/-- 60_exceptions.md R219: an error is recorded only where none was, and the state after it is the state before the
transaction with ERR set. -/
def Obligations.ErrorEntryIsPrecise : Prop :=
  (∀ (s t : State) (e : ErrCode), s.err = none → step s = .next t → t.err = some e →
    t = { s with pending := s.pending.tail, err := some e }) ∧
  (∀ (s t : State) (e : ErrCode), s.err = some e → step s = .next t → t.err = some e ∨ t.err = none)

/-- 60_exceptions.md R213 to R216 with the order of R220: the codes, and which command and which buffer write raises
which error, exactly; no read raises any. -/
def Obligations.CommandErrorsAreRaisedExactly : Prop :=
  (errField (some .uninit) = 2 ∧ errField (some .sealed) = 3 ∧ errField (some .len) = 4 ∧ errField (some .range) = 5) ∧
  (∀ (i : Instr) (s t : State), s.err = none → exec i s = .next t →
    (t.err = some .uninit ↔ s.phase = .uninit ∧ i ∈ [Instr.csum, .hdr, .udpck, .ipck, .pkt]) ∧
    (t.err = some .sealed ↔ s.phase = .sealed ∧ i ∈ [Instr.hdr, .udpck, .ipck, .pkt]) ∧
    (t.err = some .len ↔ s.phase = .opened ∧ i ∈ [Instr.hdr, .udpck, .pkt] ∧
      s.params.bufBytes - 28 < s.payloadLen.toNat) ∧
    (t.err = some .range ↔ s.phase ≠ .uninit ∧ i = .csum ∧
      s.params.bufBytes < s.ckOff.toNat + s.ckLen.toNat) ∧
    t.err ≠ some .opcode ∧ t.err ≠ some .access ∧ t.err ≠ some .width) ∧
  (∀ (a : BitVec 16) (b : Byte) (s t : State), s.err = none → transact (.bufWrite a b) s = .next t →
    (t.err = some .uninit ↔ s.phase = .uninit) ∧ (t.err = some .sealed ↔ s.phase = .sealed) ∧
    (t.err = some .range ↔ s.phase = .opened ∧ s.params.bufBytes ≤ a.toNat) ∧ t.err ≠ some .len) ∧
  (∀ (n : BitVec 14) (a : BitVec 16) (s t : State),
    transact (.regRead n) s = .next t ∨ transact (.bufRead a) s = .next t → t.err = s.err)

/-- 60_exceptions.md R217 and R218, with the order of R220: the codes, E_ACCESS whatever the value, E_WIDTH only for a
register the host may write, and the register keeps its value. -/
def Obligations.RegisterErrorsAreRaisedExactly : Prop :=
  (errField (some .access) = 6 ∧ errField (some .width) = 7) ∧
  ∀ (n : BitVec 14) (v : Word) (s t : State), s.err = none → transact (.regWrite n v) s = .next t →
    (t.err = some .access ↔ 1 ≤ n.toNat ∧ n.toNat ≤ 4 ∨ 14 ≤ n.toNat) ∧
    (t.err = some .width ↔ 5 ≤ n.toNat ∧ n.toNat ≤ 13 ∧ 2 ^ widthOfNumber n.toNat ≤ v.toNat) ∧
    (t.err = some .access ∨ t.err = some .width → t = { s with err := t.err })

/-- 60_exceptions.md R221: on a faulted block every RegWrite but the exact word 7 to CMD, and every BufWrite, changes
nothing at all, and the reads return what they return on the same block not faulted, but for STATUS. -/
def Obligations.FaultedBlockIgnoresWrites : Prop :=
  (∀ (s : State) (x : Txn) (rest : List Txn), s.err ≠ none → s.pending = x :: rest → worksWhenFaulted x = false →
    step s = .next { s with pending := rest }) ∧
  (∀ (s : State) (n : BitVec 14), n ≠ 1 → regRead n s = regRead n { s with err := none }) ∧
  (∀ (s : State) (a : BitVec 16), bufRead a s = bufRead a { s with err := none })

/-- 60_exceptions.md R222: only SRST and Reset end the faulted condition, and both leave the reset values, and the
parameters as they were (70_reset_and_hazards.md R241). That what the host has pending and has received survives them is
the model's (log entry 13). -/
def Obligations.OnlyResetsClearAnError : Prop :=
  ∀ (s t : State) (e : ErrCode), s.err = some e → step s = .next t → t.err ≠ some e →
    (∃ rest, s.pending = .reset :: rest ∨ s.pending = .regWrite 0 0x00000007 :: rest) ∧
      ResetFrom { s with pending := s.pending.tail } t

/-! ## The commands -/

/-- 43_system_commands.md R200: NOP answers its own state, in every state; 0x00000100 is no NOP. -/
def Obligations.NopChangesNothing : Prop :=
  decode 0x00000000 = .ok .nop ∧ (∀ s : State, exec .nop s = .next s) ∧ decode 0x00000100 ≠ .ok .nop

/-- 41_header_serialiser.md R150: CLR, in every phase, leaves every byte zero and PHASE = OPEN and changes nothing else;
it is the only command that leaves UNINIT. That addresses from BUF_BYTES up, which are no buffer bytes, read zero too is
the model's choice (log entry 4). -/
def Obligations.ClrZeroesTheBufferAndOpens : Prop :=
  decode 0x00000002 = .ok .clr ∧
  (∀ s : State, s.err = none →
    ∃ m : Memory, exec .clr s = .next { s with buf := m, phase := .opened } ∧ ∀ a, m.read a = 0x00) ∧
  (∀ (i : Instr) (s t : State), s.phase = .uninit → exec i s = .next t → t.phase ≠ .uninit → i = .clr)

/-- 40_checksum_engine.md R138: CSUM's two refusals in their order, and RESULT; the empty range gives 0xFFFF. -/
def Obligations.CsumStoresTheRangeChecksum : Prop :=
  decode 0x00000001 = .ok .csum ∧
  ∀ s : State, s.err = none →
    (s.phase = .uninit → exec .csum s = .next { s with err := some .uninit }) ∧
    (s.phase ≠ .uninit → s.params.bufBytes < s.ckOff.toNat + s.ckLen.toNat →
      exec .csum s = .next { s with err := some .range }) ∧
    (s.phase ≠ .uninit → s.ckOff.toNat + s.ckLen.toNat ≤ s.params.bufBytes →
      exec .csum s = .next { s with result := checksum s.buf s.ckOff.toNat s.ckLen.toNat 0 }) ∧
    (s.phase ≠ .uninit → s.ckOff.toNat ≤ s.params.bufBytes → s.ckLen = 0 →
      exec .csum s = .next { s with result := 0xFFFF })

/-- 41_header_serialiser.md R151, R153: HDR's three refusals in their order, the 28 bytes it writes, as the tables of
30_encoding.md R96 and R98 list them, with both checksum fields zero, and that it changes nothing else. -/
def Obligations.HdrWritesTheHeaderBytes : Prop :=
  decode 0x00000003 = .ok .hdr ∧
  ∀ s : State, s.err = none →
    (s.phase = .uninit → exec .hdr s = .next { s with err := some .uninit }) ∧
    (s.phase = .sealed → exec .hdr s = .next { s with err := some .sealed }) ∧
    (s.phase = .opened → s.params.bufBytes - 28 < s.payloadLen.toNat →
      exec .hdr s = .next { s with err := some .len }) ∧
    (s.phase = .opened → s.payloadLen.toNat ≤ s.params.bufBytes - 28 →
      ∃ m : Memory, exec .hdr s = .next { s with buf := m } ∧ m.bytes 28 = headerImage s 0x0000 0x0000 ∧
        ∀ a, 28 ≤ a → m.read a = s.buf.read a)

/-- 42_checksum_passes.md R180, R181: UDPCK's three refusals in their order, the checksum it stores in BUF[26], BUF[27]
and UDP_CSUM, computed over a buffer whose field is zero, and that it changes nothing else. -/
def Obligations.UdpckStoresTheUdpChecksum : Prop :=
  decode 0x00000004 = .ok .udpck ∧
  ∀ s : State, s.err = none →
    (s.phase = .uninit → exec .udpck s = .next { s with err := some .uninit }) ∧
    (s.phase = .sealed → exec .udpck s = .next { s with err := some .sealed }) ∧
    (s.phase = .opened → s.params.bufBytes - 28 < s.payloadLen.toNat →
      exec .udpck s = .next { s with err := some .len }) ∧
    (s.phase = .opened → s.payloadLen.toNat ≤ s.params.bufBytes - 28 →
      ∃ (z m : Memory) (c : Half),
        (z.read 26 = 0 ∧ z.read 27 = 0 ∧ ∀ a, a ≠ 26 → a ≠ 27 → z.read a = s.buf.read a) ∧
        c = checksum z 20 (8 + s.payloadLen.toNat) (pseudoWords s) ∧
        exec .udpck s = .next { s with buf := m, udpCsum := c } ∧
        m.read 26 = c.extractLsb' 8 8 ∧ m.read 27 = c.extractLsb' 0 8 ∧
        ∀ a, a ≠ 26 → a ≠ 27 → m.read a = s.buf.read a)

/-- 42_checksum_passes.md R182: IPCK's two refusals in their order, the checksum of the 20 header bytes it stores in
BUF[10], BUF[11] and IP_CSUM, computed over a buffer whose field is zero, and that it seals and changes nothing else; and
its corner cases, a header that HDR has written and a buffer of zeros. -/
def Obligations.IpckStoresTheHeaderChecksumAndSeals : Prop :=
  decode 0x00000005 = .ok .ipck ∧
  ∀ s : State, s.err = none →
    (s.phase = .uninit → exec .ipck s = .next { s with err := some .uninit }) ∧
    (s.phase = .sealed → exec .ipck s = .next { s with err := some .sealed }) ∧
    (s.phase = .opened →
      ∃ (z m : Memory) (c : Half),
        (z.read 10 = 0 ∧ z.read 11 = 0 ∧ ∀ a, a ≠ 10 → a ≠ 11 → z.read a = s.buf.read a) ∧
        c = checksum z 0 20 0 ∧ (s.buf.read 0 = 0x45 → c ≠ 0xFFFF) ∧ ((∀ a, s.buf.read a = 0) → c = 0xFFFF) ∧
        exec .ipck s = .next { s with buf := m, ipCsum := c, phase := .sealed } ∧
        m.read 10 = c.extractLsb' 8 8 ∧ m.read 11 = c.extractLsb' 0 8 ∧
        ∀ a, a ≠ 10 → a ≠ 11 → m.read a = s.buf.read a)

/-- 42_checksum_passes.md R183: PKT's three refusals in their order, and the finished packet: both headers as the tables
list them with the two checksums in place, each computed over the serialised packet with its field zero; the report
registers; the seal; nothing else changes. -/
def Obligations.PktBuildsTheFinishedPacket : Prop :=
  decode 0x00000006 = .ok .pkt ∧
  ∀ s : State, s.err = none →
    (s.phase = .uninit → exec .pkt s = .next { s with err := some .uninit }) ∧
    (s.phase = .sealed → exec .pkt s = .next { s with err := some .sealed }) ∧
    (s.phase = .opened → s.params.bufBytes - 28 < s.payloadLen.toNat →
      exec .pkt s = .next { s with err := some .len }) ∧
    (s.phase = .opened → s.payloadLen.toNat ≤ s.params.bufBytes - 28 →
      ∃ (h m : Memory) (u c : Half),
        (h.bytes 28 = headerImage s 0x0000 0x0000 ∧ ∀ a, 28 ≤ a → h.read a = s.buf.read a) ∧
        u = checksum h 20 (8 + s.payloadLen.toNat) (pseudoWords s) ∧ c = checksum h 0 20 0 ∧
        exec .pkt s = .next { s with buf := m, udpCsum := u, ipCsum := c, phase := .sealed } ∧
        m.bytes 28 = headerImage s c u ∧ ∀ a, 28 ≤ a → m.read a = s.buf.read a)

/-- 42_checksum_passes.md R183: PKT has the same effect as HDR, UDPCK and IPCK in that order, in every state, refusals
and faulted states included. -/
def Obligations.PktIsHdrThenUdpckThenIpck : Prop :=
  ∀ s : State, andThen (andThen (exec .hdr s) (exec .udpck)) (exec .ipck) = exec .pkt s

/-- 41_header_serialiser.md R156: the length fields after a successful HDR or PKT, and E_LEN for every longer payload
instead of a field that wraps. -/
def Obligations.LengthFieldsMatchThePayload : Prop :=
  ∀ (i : Instr) (s : State), i = .hdr ∨ i = .pkt → s.err = none → s.phase = .opened →
    (s.payloadLen.toNat ≤ s.params.bufBytes - 28 →
      ∃ t, exec i s = .next t ∧ t.buf.memRead 2 2 = 20 + 8 + s.payloadLen.toNat ∧
        t.buf.memRead 24 2 = 8 + s.payloadLen.toNat) ∧
    (s.params.bufBytes - 28 < s.payloadLen.toNat → exec i s = .next { s with err := some .len })

/-- 41_header_serialiser.md R157: the bytes of a built packet are a function of the seven operand registers, the payload
bytes and UDP_PSEUDO, and of nothing else: two blocks that agree on those and on little else build the same packet. -/
def Obligations.SameConfigurationBuildsTheSamePacket : Prop :=
  ∀ s₁ s₂ : State, s₁.err = none → s₂.err = none → s₁.phase = .opened → s₂.phase = .opened →
    s₁.params.udpPseudo = s₂.params.udpPseudo → s₁.srcAddr = s₂.srcAddr → s₁.dstAddr = s₂.dstAddr →
    s₁.srcPort = s₂.srcPort → s₁.dstPort = s₂.dstPort → s₁.ttl = s₂.ttl → s₁.ident = s₂.ident →
    s₁.payloadLen = s₂.payloadLen → s₁.payloadLen.toNat ≤ s₁.params.bufBytes - 28 →
    s₂.payloadLen.toNat ≤ s₂.params.bufBytes - 28 →
    (∀ k, k < s₁.payloadLen.toNat → s₁.buf.read (28 + k) = s₂.buf.read (28 + k)) →
    ∃ t₁ t₂, exec .pkt s₁ = .next t₁ ∧ exec .pkt s₂ = .next t₂ ∧ t₁.packet = t₂.packet ∧
      t₁.udpCsum = t₂.udpCsum ∧ t₁.ipCsum = t₂.ipCsum

/-- 42_checksum_passes.md R184: the two passes do not see what the other writes; on a canonical buffer the order does not
matter at all. -/
def Obligations.PassesDoNotDependOnTheirOrder : Prop :=
  ∀ (p : Nat) (s : State), s.buf.wf → udpPass p (ipPass s) = ipPass (udpPass p s)

/-- 42_checksum_passes.md R187: what a finished packet verifies to, built by PKT or by HDR, UDPCK, IPCK, for both values
of UDP_PSEUDO. -/
def Obligations.FinishedPacketVerifies : Prop :=
  ∀ s : State, s.err = none → s.phase = .opened → s.payloadLen.toNat ≤ s.params.bufBytes - 28 →
    ∃ t, exec .pkt s = .next t ∧ andThen (andThen (exec .hdr s) (exec .udpck)) (exec .ipck) = .next t ∧
      checksum t.buf 0 20 0 = 0x0000 ∧
      (s.params.udpPseudo = false → checksum t.buf 20 (8 + s.payloadLen.toNat) 0 = 0x0000) ∧
      (s.params.udpPseudo = true →
        (checksum t.buf 20 (8 + s.payloadLen.toNat) 0).toNat = fold (pseudoWords s) % 65535)

/-! ## The checksum -/

/-- 40_checksum_engine.md R130: words are paired from the first byte of the range, high byte first, and an odd last byte
is a high byte. -/
def Obligations.WordSumPairsFromTheFirstByte : Prop :=
  ∀ (m : Memory) (a : Nat),
    wordSum m a 0 = 0 ∧ wordSum m a 1 = (m.read a).toNat * 256 ∧
    ∀ len, wordSum m a (len + 2) = ((m.read a).toNat * 256 + (m.read (a + 1)).toNat) + wordSum m (a + 2) len

/-- 40_checksum_engine.md R131: the loop of Fold is left only when nothing is above 16 bits, whatever the sum. -/
def Obligations.FoldRunsUntilStable : Prop :=
  ∀ s : Nat, fold s < 65536 ∧ fold s = if s / 65536 = 0 then s else fold (s % 65536 + s / 65536)

/-- 40_checksum_engine.md R133: a 32-bit accumulator holds every sum exactly, within the bounds the rule states, and so
does the sum with the extra addend. -/
def Obligations.AccumulatorNeverWraps : Prop :=
  ∀ (m : Memory) (a len e : Nat), len ≤ 65535 → e ≤ 6 * 0xFFFF →
    wordSum m a len ≤ 0x7FFF8000 ∧ wordSum m a len + e ≤ 0x80057FFA ∧ (accSum m a len).toNat = wordSum m a len

/-- 40_checksum_engine.md R134: what Fold computes, how often its loop runs, and when a checksum is 0xFFFF or 0x0000. -/
def Obligations.FoldClosedFormAndRounds : Prop :=
  fold 0 = 0 ∧ (∀ s, 0 < s → fold s = (s - 1) % 65535 + 1) ∧
  (∀ s, s < 2 ^ 32 → foldRounds s s ≤ 2 ∧ (foldRounds s s = 0 ↔ s ≤ 0xFFFF) ∧
    (foldRounds s s = 2 ↔ 0x10000 ≤ s % 65536 + s / 65536)) ∧
  (0x10000 ≤ 0x1FFFF % 65536 + 0x1FFFF / 65536 ∧ ∀ s, s < 0x1FFFF → s % 65536 + s / 65536 < 0x10000) ∧
  (∀ (m : Memory) (a len e : Nat),
    (checksum m a len e = 0xFFFF ↔ wordSum m a len + e = 0) ∧
    (checksum m a len e = 0x0000 ↔ wordSum m a len + e ≠ 0 ∧ (wordSum m a len + e) % 65535 = 0))

/-- 40_checksum_engine.md R135: a 16-bit accumulator with end-around carry ends at the folded sum. -/
def Obligations.EndAroundCarryGivesTheSameSum : Prop :=
  ∀ (m : Memory) (a len : Nat), (endAroundSum m a len).toNat = fold (wordSum m a len)

/-- 40_checksum_engine.md R136: a single fold is right exactly where its own addition does not carry; on the six bytes
FF FF FF FF 00 01 the block gives 0xFFFE, a single fold 0xFFFF. -/
def Obligations.SingleFoldIsWrong : Prop :=
  (∀ s, s < 2 ^ 32 → (singleFoldChecksum s = ~~~ (BitVec.ofNat 16 (fold s)) ↔ s % 65536 + s / 65536 < 0x10000)) ∧
  wordSum (Memory.cleared.load 0 [0xFF, 0xFF, 0xFF, 0xFF, 0x00, 0x01]) 0 6 = 0x1FFFF ∧
  checksum (Memory.cleared.load 0 [0xFF, 0xFF, 0xFF, 0xFF, 0x00, 0x01]) 0 6 0 = 0xFFFE ∧
  singleFoldChecksum 0x1FFFF = 0xFFFF

/-- 40_checksum_engine.md R141: the table of corner cases, WordSum, last value of the Fold trace and Checksum of each
row. -/
def Obligations.ChecksumCornerCases : Prop :=
  CornerCase [] 0x0 0x0000 0xFFFF ∧
  CornerCase [0x00, 0x00] 0x0 0x0000 0xFFFF ∧
  CornerCase [0xAB] 0xAB00 0xAB00 0x54FF ∧
  CornerCase [0x12, 0x34, 0x56] 0x6834 0x6834 0x97CB ∧
  CornerCase [0x00, 0x01] 0x1 0x0001 0xFFFE ∧
  CornerCase [0xFF, 0xFF] 0xFFFF 0xFFFF 0x0000 ∧
  CornerCase [0xFF, 0xFF, 0x00, 0x01] 0x10000 0x0001 0xFFFE ∧
  CornerCase [0xFF, 0xFF, 0xFF, 0xFF, 0x00, 0x01] 0x1FFFF 0x0001 0xFFFE ∧
  CornerCase [0xFF, 0xFF, 0xFF, 0xFF, 0xFF, 0xFF] 0x2FFFD 0xFFFF 0x0000 ∧
  CornerCase [0xFF, 0xFF, 0xFF, 0xFF, 0xFF, 0xFF, 0x00, 0x03] 0x30000 0x0003 0xFFFC

/-- 40_checksum_engine.md R142: the result depends only on the bytes of the range and their order. -/
def Obligations.ChecksumDependsOnlyOnItsRange : Prop :=
  ∀ (m n : Memory) (a b len e : Nat), (∀ k, k < len → m.read (a + k) = n.read (b + k)) →
    checksum m a len e = checksum n b len e

/-- 40_checksum_engine.md R140: self-verification, for a field that is one of the words of the range. -/
def Obligations.StoredChecksumVerifiesToZero : Prop :=
  ∀ (m : Memory) (a len f e : Nat), a ≤ f → f + 1 < a + len → (f - a) % 2 = 0 → m.read f = 0 → m.read (f + 1) = 0 →
    checksum (m.memWrite f 2 (checksum m a len e).toNat) a len e = 0x0000

/-! ## Whole-machine rules -/

/-- 10_state.md R32, the transition table: for a block that is not faulted, each command raises the error its cell names
and changes nothing else, or ends in the phase its cell names, or, for a reason that is not the phase, in an error that
leaves the phase. -/
def Obligations.PhasesFollowTheTransitionTable : Prop :=
  ∀ (i : Instr) (s t : State), s.err = none → exec i s = .next t →
    match phaseTable i s.phase with
    | .error e => t = { s with err := some e }
    | .ok p => (t.err = none ∧ t.phase = p) ∨ ((t.err = some .len ∨ t.err = some .range) ∧ t.phase = s.phase)

/-- 42_checksum_passes.md R186: in SEALED the buffer does not change and only CLR, SRST or Reset ends the phase. -/
def Obligations.SealedPacketDoesNotChange : Prop :=
  ∀ s t : State, s.phase = .sealed → step s = .next t →
    (t.phase = .sealed ∧ t.buf = s.buf) ∨
    ∃ rest, s.pending = .reset :: rest ∨ s.pending = .regWrite 0 0x00000002 :: rest ∨
      s.pending = .regWrite 0 0x00000007 :: rest

/-- 70_reset_and_hazards.md R244: a packet is finished exactly when STATUS reads 0x00000002, and a finished packet stays
as it is until CLR, SRST or Reset. -/
def Obligations.FinishedPacketShowsInStatusAndStays : Prop :=
  (∀ s : State, regRead 1 s = 0x00000002 ↔ s.finished) ∧
  (∀ s t : State, s.finished → step s = .next t →
    (t.phase = .sealed ∧ ∀ a, t.buf.read a = s.buf.read a) ∨
    ∃ rest, s.pending = .reset :: rest ∨ s.pending = lineCmd .clr :: rest ∨ s.pending = lineCmd .srst :: rest)

/-- 20_memory.md R75, the column "writes BUF": the bytes each command can change. SRST is left out: after it the content
is unspecified. -/
def Obligations.CommandsWriteOnlyTheirBytes : Prop :=
  ∀ (i : Instr) (s t : State) (a : Nat), exec i s = .next t → t.buf.read a ≠ s.buf.read a →
    i = .clr ∨ (i = .hdr ∧ a < 28) ∨ (i = .udpck ∧ (a = 26 ∨ a = 27)) ∨ (i = .ipck ∧ (a = 10 ∨ a = 11)) ∨
      (i = .pkt ∧ a < 28) ∨ i = .srst

/-- 10_state.md R36, R37, R38: which transaction can change a report register. -/
def Obligations.ReportRegistersHaveTheirWriters : Prop :=
  ∀ s t : State, step s = .next t →
    (t.result ≠ s.result → ∃ rest, s.pending = .reset :: rest ∨ s.pending = .regWrite 0 0x00000001 :: rest ∨
      s.pending = .regWrite 0 0x00000007 :: rest) ∧
    (t.udpCsum ≠ s.udpCsum → ∃ rest, s.pending = .reset :: rest ∨ s.pending = .regWrite 0 0x00000004 :: rest ∨
      s.pending = .regWrite 0 0x00000006 :: rest ∨ s.pending = .regWrite 0 0x00000007 :: rest) ∧
    (t.ipCsum ≠ s.ipCsum → ∃ rest, s.pending = .reset :: rest ∨ s.pending = .regWrite 0 0x00000005 :: rest ∨
      s.pending = .regWrite 0 0x00000006 :: rest ∨ s.pending = .regWrite 0 0x00000007 :: rest)

/-- 10_state.md R22 to R30: the nine operand registers are changed by nothing but a host write to that register, SRST
and Reset. -/
def Obligations.OperandRegistersAreTheHosts : Prop :=
  ∀ (s t : State) (n : BitVec 14), step s = .next t → 5 ≤ n.toNat → n.toNat ≤ 13 → regRead n t ≠ regRead n s →
    ∃ rest v, s.pending = .reset :: rest ∨ s.pending = .regWrite n v :: rest ∨
      s.pending = .regWrite 0 0x00000007 :: rest

/-- The state right after reset meets the invariant of every run. -/
def Obligations.ResetStateMeetsTheInvariant : Prop := State.reset.Inv

/-- Every step keeps the invariant, from every state that meets it: the buffer stays canonical and inside BUF_BYTES, no
unspecified byte is left once a packet is open (41_header_serialiser.md R159), and a sealed header verifies to zero with
IP_CSUM in it (42_checksum_passes.md R186, R187). -/
def Obligations.EveryStepKeepsTheInvariant : Prop :=
  ∀ s t : State, s.Inv → step s = .next t → t.Inv

/-- 70_reset_and_hazards.md R242: the unspecified content of the buffer cannot be observed. Two blocks in UNINIT that
differ only in it return the same values to the host and end in the same state after any number of transactions, but for
the buffer while they are in UNINIT. -/
def Obligations.UnspecifiedBufferIsNeverObserved : Prop :=
  ∀ (k : Nat) (s : State) (m : Memory) (n : Nat), s.phase = .uninit →
    ∃ s' t', core.run k s = .next s' ∧ core.run k { s with buf := m, fresh := n } = .next t' ∧
      t'.returned = s'.returned ∧ (t' = { s' with fresh := t'.fresh } ∨
        (s'.phase = .uninit ∧ t' = { s' with buf := t'.buf, fresh := t'.fresh }))

/-! ## The platform -/

/-- 20_memory.md R61 and R71: the bus addresses of the transactions, and the accesses that are none and are refused. -/
def Obligations.BusAccessesAreTheTransactions : Prop :=
  ∀ (s : State) (n : BitVec 14) (a : BitVec 16) (v : Word) (b : Byte) (h : Half) (off : Nat),
    issue .resetSignal s = .next { s with pending := s.pending ++ [.reset] } ∧
    issue (.read32 (s.params.base + 4 * n.toNat)) s = .next { s with pending := s.pending ++ [.regRead n] } ∧
    issue (.write32 (s.params.base + 4 * n.toNat) v) s = .next { s with pending := s.pending ++ [.regWrite n v] } ∧
    issue (.read8 (s.params.base + 0x10000 + a.toNat)) s = .next { s with pending := s.pending ++ [.bufRead a] } ∧
    issue (.write8 (s.params.base + 0x10000 + a.toNat) b) s = .next { s with pending := s.pending ++ [.bufWrite a b] } ∧
    (off < 0x20000 → issue (.read16 (s.params.base + off)) s = .refused .unsupportedAccess ∧
      issue (.write16 (s.params.base + off) h) s = .refused .unsupportedAccess) ∧
    (off < 0x10000 → issue (.read8 (s.params.base + off)) s = .refused .unsupportedAccess ∧
      issue (.write8 (s.params.base + off) b) s = .refused .unsupportedAccess) ∧
    (off < 0x20000 → (off % 4 ≠ 0 ∨ 0x10000 ≤ off) →
      issue (.read32 (s.params.base + off)) s = .refused .unsupportedAccess ∧
      issue (.write32 (s.params.base + off) v) s = .refused .unsupportedAccess)
end

