-- ==== Sys2Proof/Laws/Memory.lean ====
section
/-! SUPPORT. The buffer: read after write, frames, the canonical form and that every operation keeps it. -/

namespace Sys2Proof.Machine

theorem lookupCell_filter_self (cells : List Host.Cell) (a : Nat) :
    lookupCell (cells.filter (fun c => c.1 != a)) a = none := by
  induction cells with
  | nil => rfl
  | cons c rest ih => by_cases h : c.1 = a <;> simp_all [lookupCell]

theorem lookupCell_filter_other (cells : List Host.Cell) {a x : Nat} (h : x ≠ a) :
    lookupCell (cells.filter (fun c => c.1 != a)) x = lookupCell cells x := by
  induction cells with
  | nil => rfl
  | cons c rest ih =>
    by_cases hc : c.1 = a
    · simp [lookupCell, hc, ih, Ne.symm h]
    · simp [lookupCell, hc, ih]

theorem lookupCell_insertCell (a x : Nat) (b : Byte) (cells : List Host.Cell) (h : lookupCell cells a = none) :
    lookupCell (insertCell a b cells) x = if x = a then some b else lookupCell cells x := by
  induction cells with
  | nil => simp [insertCell, lookupCell, eq_comm]
  | cons c rest ih =>
    obtain ⟨y, v⟩ := c
    have hy : ¬ y = a := fun e => by simp [lookupCell, e] at h
    have hr : lookupCell rest a = none := by simpa [lookupCell, hy] using h
    by_cases hx : x = a
    · subst hx
      by_cases hlt : x < y <;> simp [insertCell, hlt, lookupCell, hy, ih hr]
    · by_cases hlt : a < y <;> simp [insertCell, hlt, lookupCell, hx, ih hr, Ne.symm hx]

/-- Read after write: the written byte at the written address, every other byte as before. -/
@[simp] theorem Memory.read_write (m : Memory) (a x : Nat) (b : Byte) :
    (m.write a b).read x = if x = a then b else m.read x := by
  unfold Memory.read Memory.write putCell
  by_cases hb : b = background m.fill a <;> by_cases hx : x = a
  · subst hx; simp [hb, lookupCell_filter_self]
  · simp [hb, hx, lookupCell_filter_other]
  · subst hx; simp [hb, lookupCell_insertCell, lookupCell_filter_self]
  · simp [hb, hx, lookupCell_insertCell, lookupCell_filter_self, lookupCell_filter_other]

@[simp] theorem Memory.write_fill (m : Memory) (a : Nat) (b : Byte) : (m.write a b).fill = m.fill := rfl

@[simp] theorem Memory.read_cleared (a : Nat) : Memory.cleared.read a = 0 := rfl

/-- MemWrite read back byte by byte: the most significant byte at the lowest address, everything else as before. -/
theorem Memory.read_memWrite (m : Memory) (a n v x : Nat) :
    (m.memWrite a n v).read x =
      if a ≤ x ∧ x < a + n then BitVec.ofNat 8 (v / 256 ^ (a + n - 1 - x)) else m.read x := by
  induction n generalizing v with
  | zero => simp [Memory.memWrite]
  | succ n ih =>
    rw [Memory.memWrite, Memory.read_write, ih]
    by_cases hx : x = a + n
    · subst hx; simp
    · by_cases hr : a ≤ x ∧ x < a + n
      · have e : a + (n + 1) - 1 - x = a + n - 1 - x + 1 := by omega
        have hr' : a ≤ x ∧ x < a + (n + 1) := by omega
        rw [if_neg hx, if_pos hr, if_pos hr', e, Nat.pow_succ, Nat.mul_comm, Nat.div_div_eq_div_mul]
      · have hr' : ¬ (a ≤ x ∧ x < a + (n + 1)) := by omega
        rw [if_neg hx, if_neg hr, if_neg hr']

/-- MemWrite leaves every byte outside its range as it was. -/
theorem Memory.read_memWrite_outside (m : Memory) (a n v x : Nat) (h : x < a ∨ a + n ≤ x) :
    (m.memWrite a n v).read x = m.read x := by
  rw [Memory.read_memWrite, if_neg (by omega)]

@[simp] theorem Memory.memWrite_fill (m : Memory) (a n v : Nat) : (m.memWrite a n v).fill = m.fill := by
  induction n generalizing v with
  | zero => rfl
  | succ n ih => simp [Memory.memWrite, ih]

/-- MemRead depends only on the bytes it reads. -/
theorem Memory.memRead_congr (m n : Memory) (a k : Nat) (h : ∀ x, a ≤ x → x < a + k → m.read x = n.read x) :
    m.memRead a k = n.memRead a k := by
  induction k with
  | zero => rfl
  | succ k ih =>
    rw [Memory.memRead, Memory.memRead, ih (fun x h1 h2 => h x h1 (by omega)), h (a + k) (by omega) (by omega)]

/-- A 16-bit MemRead is the byte at the lower address above the next one. -/
theorem Memory.memRead_two (m : Memory) (a : Nat) :
    m.memRead a 2 = (m.read a).toNat * 256 + (m.read (a + 1)).toNat := by
  simp [Memory.memRead]

theorem Memory.memRead_one (m : Memory) (a : Nat) : m.memRead a 1 = (m.read a).toNat := by
  simp [Memory.memRead]

theorem Memory.memRead_lt (m : Memory) (a n : Nat) : m.memRead a n < 256 ^ n := by
  induction n with
  | zero => simp [Memory.memRead]
  | succ n ih =>
    have := (m.read (a + n)).isLt
    rw [Memory.memRead, Nat.pow_succ]
    omega

/-- MemRead after MemWrite at the same place gives the value, when it fits. -/
theorem Memory.memRead_memWrite_same (m : Memory) (a n v : Nat) (hv : v < 256 ^ n) :
    (m.memWrite a n v).memRead a n = v := by
  induction n generalizing v with
  | zero => simp only [Memory.memRead]; simp at hv; omega
  | succ n ih =>
    have hdiv : v / 256 < 256 ^ n := by
      rw [Nat.div_lt_iff_lt_mul (by decide)]; rw [Nat.pow_succ] at hv; exact hv
    have hlow : ((m.memWrite a n (v / 256)).write (a + n) (BitVec.ofNat 8 v)).memRead a n = v / 256 := by
      rw [← ih (v / 256) hdiv]
      apply Memory.memRead_congr
      intro x _ h2
      rw [Memory.read_write, if_neg (by omega), ih (v / 256) hdiv]
    rw [Memory.memRead, Memory.memWrite, hlow, Memory.read_write, if_pos rfl, BitVec.toNat_ofNat]
    omega

/-! The canonical form. -/

theorem Memory.mem_insertCell (a : Nat) (b : Byte) (cells : List Host.Cell) (c : Host.Cell) :
    c ∈ insertCell a b cells ↔ c = (a, b) ∨ c ∈ cells := by
  induction cells with
  | nil => simp [insertCell]
  | cons d rest ih =>
    by_cases h : a < d.1
    · simp [insertCell, h]
    · simp only [insertCell, h, if_false, List.mem_cons, ih]; tauto

theorem Memory.pairwise_insertCell (a : Nat) (b : Byte) (cells : List Host.Cell)
    (hs : cells.Pairwise (fun c d => c.1 < d.1)) (ha : ∀ c ∈ cells, c.1 ≠ a) :
    (insertCell a b cells).Pairwise (fun c d => c.1 < d.1) := by
  induction cells with
  | nil => simp [insertCell]
  | cons d rest ih =>
    obtain ⟨hd, hrest⟩ := List.pairwise_cons.1 hs
    by_cases h : a < d.1
    · simp only [insertCell, h, if_true, List.pairwise_cons]
      refine ⟨?_, hd, hrest⟩
      intro c hc
      rcases List.mem_cons.1 hc with rfl | hc
      · exact h
      · exact Nat.lt_trans h (hd c hc)
    · simp only [insertCell, h, if_false, List.pairwise_cons]
      refine ⟨?_, ih hrest (fun c hc => ha c (List.mem_cons_of_mem _ hc))⟩
      intro c hc
      rcases (Memory.mem_insertCell a b rest c).1 hc with rfl | hc
      · have := ha d List.mem_cons_self
        show d.1 < a
        omega
      · exact hd c hc

/-- What a write lists: the cells of before, and perhaps one at the written address. -/
theorem Memory.mem_write {m : Memory} {a : Nat} {b : Byte} {c : Host.Cell} (h : c ∈ (m.write a b).cells) :
    (c = (a, b) ∧ b ≠ background m.fill a) ∨ c ∈ m.cells := by
  unfold Memory.write putCell at h
  by_cases hb : b = background m.fill a
  · simp only [hb, if_true, List.mem_filter] at h
    exact .inr h.1
  · simp only [hb, if_false, Memory.mem_insertCell, List.mem_filter] at h
    exact h.elim (fun e => .inl ⟨e, hb⟩) (fun e => .inr e.1)

/-- A write keeps the canonical form. -/
theorem Memory.wf_write {m : Memory} (h : m.wf) (a : Nat) (b : Byte) : (m.write a b).wf := by
  refine ⟨?_, ?_⟩
  · have hs := List.Pairwise.filter (fun c => c.1 != a) h.1
    by_cases hb : b = background m.fill a
    · simpa [Memory.write, putCell, hb] using hs
    · simp only [Memory.write, putCell, hb, if_false]
      exact Memory.pairwise_insertCell a b _ hs (fun c hc => by simpa using (List.mem_filter.1 hc).2)
  · intro c hc
    rcases Memory.mem_write hc with ⟨rfl, hne⟩ | hc
    · exact hne
    · exact h.2 c hc

/-- MemWrite keeps the canonical form. -/
theorem Memory.wf_memWrite {m : Memory} (h : m.wf) (a n v : Nat) : (m.memWrite a n v).wf := by
  induction n generalizing v with
  | zero => exact h
  | succ n ih => exact Memory.wf_write (ih _) _ _

theorem Memory.wf_cleared : Memory.cleared.wf := by simp [Memory.wf, Memory.cleared]

/-- A buffer with nothing listed is in canonical form, whatever its bytes read as. -/
theorem Memory.wf_nil (f : Fill) : ({ fill := f, cells := [] } : Memory).wf := by simp [Memory.wf]

theorem Memory.wf_reset : State.reset.buf.wf := Memory.wf_nil _

/-- MemWrite lists cells only in its own range. -/
theorem Memory.mem_memWrite {m : Memory} {a n v : Nat} {c : Host.Cell} (h : c ∈ (m.memWrite a n v).cells) :
    (a ≤ c.1 ∧ c.1 < a + n) ∨ c ∈ m.cells := by
  induction n generalizing v with
  | zero => exact .inr h
  | succ n ih =>
    rcases Memory.mem_write h with ⟨rfl, -⟩ | h
    · exact .inl ⟨by simp, by simp⟩
    · exact (ih h).imp (fun e => ⟨e.1, by omega⟩) id

/-- In a canonical buffer a cell is listed exactly when the address reads as that byte and not as the background. -/
theorem Memory.mem_cells_iff {m : Memory} (h : m.wf) (a : Nat) (b : Byte) :
    (a, b) ∈ m.cells ↔ m.read a = b ∧ b ≠ background m.fill a := by
  have key : ∀ cells : List Host.Cell, cells.Pairwise (fun c d => c.1 < d.1) →
      ((a, b) ∈ cells ↔ lookupCell cells a = some b) := by
    intro cells
    induction cells with
    | nil => simp [lookupCell]
    | cons c rest ih =>
      intro hs
      obtain ⟨hc, hr⟩ := List.pairwise_cons.1 hs
      by_cases e : c.1 = a
      · have hnot : (a, b) ∉ rest := fun hm => by have := hc _ hm; omega
        simp only [List.mem_cons, hnot, or_false, lookupCell, e, if_true, Option.some.injEq]
        constructor
        · intro h; rw [← h]
        · intro h; ext1 <;> simp [e, h]
      · simp only [List.mem_cons, lookupCell, e, if_false, ← ih hr]
        constructor
        · rintro (h | h)
          · exact absurd (congrArg Prod.fst h).symm e
          · exact h
        · exact .inr
  rw [key _ h.1]
  constructor
  · intro hl
    exact ⟨by simp [Memory.read, hl], h.2 (a, b) ((key _ h.1).2 hl)⟩
  · rintro ⟨hr, hb⟩
    unfold Memory.read at hr
    cases hl : lookupCell m.cells a with
    | none => simp [hl] at hr; exact absurd hr.symm hb
    | some v => simpa [hl] using hr

/-- The form is canonical: two buffers in it with one background that read the same are the same data. -/
theorem Memory.eq_of_read_eq {m n : Memory} (hm : m.wf) (hn : n.wf) (hf : m.fill = n.fill)
    (hr : ∀ a, m.read a = n.read a) : m = n := by
  have hmem : ∀ c, c ∈ m.cells ↔ c ∈ n.cells := by
    rintro ⟨a, b⟩
    rw [Memory.mem_cells_iff hm, Memory.mem_cells_iff hn, hr, hf]
  have hcells : m.cells = n.cells := by
    apply List.Perm.eq_of_pairwise (le := fun c d : Host.Cell => c.1 < d.1)
    · intro c d _ _ h1 h2; omega
    · exact hm.1
    · exact hn.1
    · refine (List.perm_ext_iff_of_nodup ?_ ?_).2 hmem
      · exact hm.1.imp (fun h e => by rw [e] at h; exact Nat.lt_irrefl _ h)
      · exact hn.1.imp (fun h e => by rw [e] at h; exact Nat.lt_irrefl _ h)
  cases m; cases n; simp_all

end Sys2Proof.Machine
end

