-- ==== Sys2Proof/Laws/Checksum.lean ====
section
/-! SUPPORT. The loop of Fold and the word sum: one round, and how a sum splits. -/

namespace Sys2Proof.Machine

theorem foldLoop_of_lt {fuel s : Nat} (h : s < 65536) : foldLoop fuel s = s := by
  cases fuel <;> simp [foldLoop, Nat.div_eq_of_lt h]

/-- One round of the loop makes a sum above 16 bits smaller. -/
theorem fold_round_lt {s : Nat} (h : 65536 ≤ s) : s % 65536 + s / 65536 < s := by omega

theorem foldLoop_step {fuel s : Nat} (h : 65536 ≤ s) :
    foldLoop (fuel + 1) s = foldLoop fuel (s % 65536 + s / 65536) := by
  have : s / 65536 ≠ 0 := by omega
  simp [foldLoop, this]

theorem pairSum_succ (m : Memory) (a k : Nat) :
    pairSum m a (k + 1) = pairSum m a k + ((m.read (a + 2 * k)).toNat * 256 + (m.read (a + 2 * k + 1)).toNat) := by
  rw [pairSum, Memory.memRead_two]

theorem pairSum_congr (m n : Memory) (a k : Nat) (h : ∀ x, a ≤ x → x < a + 2 * k → m.read x = n.read x) :
    pairSum m a k = pairSum n a k := by
  induction k with
  | zero => rfl
  | succ k ih =>
    rw [pairSum, pairSum, ih (fun x h1 h2 => h x h1 (by omega)),
      Memory.memRead_congr m n _ 2 (fun x h1 h2 => h x (by omega) (by omega))]

end Sys2Proof.Machine
end

