-- ==== Sys2Proof/Laws/State.lean ====
section
/-! SUPPORT. Each field of the state after each named update of it: true by definition. -/

namespace Sys2Proof.Machine

@[simp] theorem resetBlock_params (s : State) : (resetBlock s).params = s.params := rfl
@[simp] theorem resetBlock_result (s : State) : (resetBlock s).result = 0 := rfl
@[simp] theorem resetBlock_udpCsum (s : State) : (resetBlock s).udpCsum = 0 := rfl
@[simp] theorem resetBlock_ipCsum (s : State) : (resetBlock s).ipCsum = 0 := rfl
@[simp] theorem resetBlock_ckOff (s : State) : (resetBlock s).ckOff = 0 := rfl
@[simp] theorem resetBlock_ckLen (s : State) : (resetBlock s).ckLen = 0 := rfl
@[simp] theorem resetBlock_srcAddr (s : State) : (resetBlock s).srcAddr = 0 := rfl
@[simp] theorem resetBlock_dstAddr (s : State) : (resetBlock s).dstAddr = 0 := rfl
@[simp] theorem resetBlock_srcPort (s : State) : (resetBlock s).srcPort = 0 := rfl
@[simp] theorem resetBlock_dstPort (s : State) : (resetBlock s).dstPort = 0 := rfl
@[simp] theorem resetBlock_ttl (s : State) : (resetBlock s).ttl = 0 := rfl
@[simp] theorem resetBlock_ident (s : State) : (resetBlock s).ident = 0 := rfl
@[simp] theorem resetBlock_payloadLen (s : State) : (resetBlock s).payloadLen = 0 := rfl
@[simp] theorem resetBlock_phase (s : State) : (resetBlock s).phase = .uninit := rfl
@[simp] theorem resetBlock_err (s : State) : (resetBlock s).err = none := rfl
@[simp] theorem resetBlock_buf (s : State) : (resetBlock s).buf = { fill := .unspecified s.fresh, cells := [] } := rfl
@[simp] theorem resetBlock_fresh (s : State) : (resetBlock s).fresh = s.fresh + 1 := rfl
@[simp] theorem resetBlock_pending (s : State) : (resetBlock s).pending = s.pending := rfl
@[simp] theorem resetBlock_returned (s : State) : (resetBlock s).returned = s.returned := rfl

@[simp] theorem serialiseHeaders_params (p : Nat) (s : State) : (serialiseHeaders p s).params = s.params := by simp only [serialiseHeaders]
@[simp] theorem serialiseHeaders_result (p : Nat) (s : State) : (serialiseHeaders p s).result = s.result := by simp only [serialiseHeaders]
@[simp] theorem serialiseHeaders_udpCsum (p : Nat) (s : State) : (serialiseHeaders p s).udpCsum = s.udpCsum := by simp only [serialiseHeaders]
@[simp] theorem serialiseHeaders_ipCsum (p : Nat) (s : State) : (serialiseHeaders p s).ipCsum = s.ipCsum := by simp only [serialiseHeaders]
@[simp] theorem serialiseHeaders_ckOff (p : Nat) (s : State) : (serialiseHeaders p s).ckOff = s.ckOff := by simp only [serialiseHeaders]
@[simp] theorem serialiseHeaders_ckLen (p : Nat) (s : State) : (serialiseHeaders p s).ckLen = s.ckLen := by simp only [serialiseHeaders]
@[simp] theorem serialiseHeaders_srcAddr (p : Nat) (s : State) : (serialiseHeaders p s).srcAddr = s.srcAddr := by simp only [serialiseHeaders]
@[simp] theorem serialiseHeaders_dstAddr (p : Nat) (s : State) : (serialiseHeaders p s).dstAddr = s.dstAddr := by simp only [serialiseHeaders]
@[simp] theorem serialiseHeaders_srcPort (p : Nat) (s : State) : (serialiseHeaders p s).srcPort = s.srcPort := by simp only [serialiseHeaders]
@[simp] theorem serialiseHeaders_dstPort (p : Nat) (s : State) : (serialiseHeaders p s).dstPort = s.dstPort := by simp only [serialiseHeaders]
@[simp] theorem serialiseHeaders_ttl (p : Nat) (s : State) : (serialiseHeaders p s).ttl = s.ttl := by simp only [serialiseHeaders]
@[simp] theorem serialiseHeaders_ident (p : Nat) (s : State) : (serialiseHeaders p s).ident = s.ident := by simp only [serialiseHeaders]
@[simp] theorem serialiseHeaders_payloadLen (p : Nat) (s : State) : (serialiseHeaders p s).payloadLen = s.payloadLen := by simp only [serialiseHeaders]
@[simp] theorem serialiseHeaders_phase (p : Nat) (s : State) : (serialiseHeaders p s).phase = s.phase := by simp only [serialiseHeaders]
@[simp] theorem serialiseHeaders_err (p : Nat) (s : State) : (serialiseHeaders p s).err = s.err := by simp only [serialiseHeaders]
@[simp] theorem serialiseHeaders_buf (p : Nat) (s : State) : (serialiseHeaders p s).buf = udpHeader s p (ipHeader s p s.buf) := by simp only [serialiseHeaders]
@[simp] theorem serialiseHeaders_fresh (p : Nat) (s : State) : (serialiseHeaders p s).fresh = s.fresh := by simp only [serialiseHeaders]
@[simp] theorem serialiseHeaders_pending (p : Nat) (s : State) : (serialiseHeaders p s).pending = s.pending := by simp only [serialiseHeaders]
@[simp] theorem serialiseHeaders_returned (p : Nat) (s : State) : (serialiseHeaders p s).returned = s.returned := by simp only [serialiseHeaders]

@[simp] theorem udpPass_params (p : Nat) (s : State) : (udpPass p s).params = s.params := by simp only [udpPass]
@[simp] theorem udpPass_result (p : Nat) (s : State) : (udpPass p s).result = s.result := by simp only [udpPass]
@[simp] theorem udpPass_udpCsum (p : Nat) (s : State) : (udpPass p s).udpCsum = udpChecksum p s := by simp only [udpPass]
@[simp] theorem udpPass_ipCsum (p : Nat) (s : State) : (udpPass p s).ipCsum = s.ipCsum := by simp only [udpPass]
@[simp] theorem udpPass_ckOff (p : Nat) (s : State) : (udpPass p s).ckOff = s.ckOff := by simp only [udpPass]
@[simp] theorem udpPass_ckLen (p : Nat) (s : State) : (udpPass p s).ckLen = s.ckLen := by simp only [udpPass]
@[simp] theorem udpPass_srcAddr (p : Nat) (s : State) : (udpPass p s).srcAddr = s.srcAddr := by simp only [udpPass]
@[simp] theorem udpPass_dstAddr (p : Nat) (s : State) : (udpPass p s).dstAddr = s.dstAddr := by simp only [udpPass]
@[simp] theorem udpPass_srcPort (p : Nat) (s : State) : (udpPass p s).srcPort = s.srcPort := by simp only [udpPass]
@[simp] theorem udpPass_dstPort (p : Nat) (s : State) : (udpPass p s).dstPort = s.dstPort := by simp only [udpPass]
@[simp] theorem udpPass_ttl (p : Nat) (s : State) : (udpPass p s).ttl = s.ttl := by simp only [udpPass]
@[simp] theorem udpPass_ident (p : Nat) (s : State) : (udpPass p s).ident = s.ident := by simp only [udpPass]
@[simp] theorem udpPass_payloadLen (p : Nat) (s : State) : (udpPass p s).payloadLen = s.payloadLen := by simp only [udpPass]
@[simp] theorem udpPass_phase (p : Nat) (s : State) : (udpPass p s).phase = s.phase := by simp only [udpPass]
@[simp] theorem udpPass_err (p : Nat) (s : State) : (udpPass p s).err = s.err := by simp only [udpPass]
@[simp] theorem udpPass_buf (p : Nat) (s : State) : (udpPass p s).buf = (s.buf.memWrite 26 2 0).memWrite 26 2
    (udpChecksum p s).toNat := by simp only [udpPass]
@[simp] theorem udpPass_fresh (p : Nat) (s : State) : (udpPass p s).fresh = s.fresh := by simp only [udpPass]
@[simp] theorem udpPass_pending (p : Nat) (s : State) : (udpPass p s).pending = s.pending := by simp only [udpPass]
@[simp] theorem udpPass_returned (p : Nat) (s : State) : (udpPass p s).returned = s.returned := by simp only [udpPass]

@[simp] theorem ipPass_params (s : State) : (ipPass s).params = s.params := by simp only [ipPass]
@[simp] theorem ipPass_result (s : State) : (ipPass s).result = s.result := by simp only [ipPass]
@[simp] theorem ipPass_udpCsum (s : State) : (ipPass s).udpCsum = s.udpCsum := by simp only [ipPass]
@[simp] theorem ipPass_ipCsum (s : State) : (ipPass s).ipCsum = ipChecksum s := by simp only [ipPass]
@[simp] theorem ipPass_ckOff (s : State) : (ipPass s).ckOff = s.ckOff := by simp only [ipPass]
@[simp] theorem ipPass_ckLen (s : State) : (ipPass s).ckLen = s.ckLen := by simp only [ipPass]
@[simp] theorem ipPass_srcAddr (s : State) : (ipPass s).srcAddr = s.srcAddr := by simp only [ipPass]
@[simp] theorem ipPass_dstAddr (s : State) : (ipPass s).dstAddr = s.dstAddr := by simp only [ipPass]
@[simp] theorem ipPass_srcPort (s : State) : (ipPass s).srcPort = s.srcPort := by simp only [ipPass]
@[simp] theorem ipPass_dstPort (s : State) : (ipPass s).dstPort = s.dstPort := by simp only [ipPass]
@[simp] theorem ipPass_ttl (s : State) : (ipPass s).ttl = s.ttl := by simp only [ipPass]
@[simp] theorem ipPass_ident (s : State) : (ipPass s).ident = s.ident := by simp only [ipPass]
@[simp] theorem ipPass_payloadLen (s : State) : (ipPass s).payloadLen = s.payloadLen := by simp only [ipPass]
@[simp] theorem ipPass_phase (s : State) : (ipPass s).phase = s.phase := by simp only [ipPass]
@[simp] theorem ipPass_err (s : State) : (ipPass s).err = s.err := by simp only [ipPass]
@[simp] theorem ipPass_buf (s : State) : (ipPass s).buf = (s.buf.memWrite 10 2 0).memWrite 10 2 (ipChecksum s).toNat := by simp only [ipPass]
@[simp] theorem ipPass_fresh (s : State) : (ipPass s).fresh = s.fresh := by simp only [ipPass]
@[simp] theorem ipPass_pending (s : State) : (ipPass s).pending = s.pending := by simp only [ipPass]
@[simp] theorem ipPass_returned (s : State) : (ipPass s).returned = s.returned := by simp only [ipPass]

@[simp] theorem sealPacket_params (s : State) : (sealPacket s).params = s.params := by simp only [sealPacket]
@[simp] theorem sealPacket_result (s : State) : (sealPacket s).result = s.result := by simp only [sealPacket]
@[simp] theorem sealPacket_udpCsum (s : State) : (sealPacket s).udpCsum = s.udpCsum := by simp only [sealPacket]
@[simp] theorem sealPacket_ipCsum (s : State) : (sealPacket s).ipCsum = s.ipCsum := by simp only [sealPacket]
@[simp] theorem sealPacket_ckOff (s : State) : (sealPacket s).ckOff = s.ckOff := by simp only [sealPacket]
@[simp] theorem sealPacket_ckLen (s : State) : (sealPacket s).ckLen = s.ckLen := by simp only [sealPacket]
@[simp] theorem sealPacket_srcAddr (s : State) : (sealPacket s).srcAddr = s.srcAddr := by simp only [sealPacket]
@[simp] theorem sealPacket_dstAddr (s : State) : (sealPacket s).dstAddr = s.dstAddr := by simp only [sealPacket]
@[simp] theorem sealPacket_srcPort (s : State) : (sealPacket s).srcPort = s.srcPort := by simp only [sealPacket]
@[simp] theorem sealPacket_dstPort (s : State) : (sealPacket s).dstPort = s.dstPort := by simp only [sealPacket]
@[simp] theorem sealPacket_ttl (s : State) : (sealPacket s).ttl = s.ttl := by simp only [sealPacket]
@[simp] theorem sealPacket_ident (s : State) : (sealPacket s).ident = s.ident := by simp only [sealPacket]
@[simp] theorem sealPacket_payloadLen (s : State) : (sealPacket s).payloadLen = s.payloadLen := by simp only [sealPacket]
@[simp] theorem sealPacket_phase (s : State) : (sealPacket s).phase = .sealed := by simp only [sealPacket]
@[simp] theorem sealPacket_err (s : State) : (sealPacket s).err = s.err := by simp only [sealPacket]
@[simp] theorem sealPacket_buf (s : State) : (sealPacket s).buf = s.buf := by simp only [sealPacket]
@[simp] theorem sealPacket_fresh (s : State) : (sealPacket s).fresh = s.fresh := by simp only [sealPacket]
@[simp] theorem sealPacket_pending (s : State) : (sealPacket s).pending = s.pending := by simp only [sealPacket]
@[simp] theorem sealPacket_returned (s : State) : (sealPacket s).returned = s.returned := by simp only [sealPacket]

@[simp] theorem writeReg_params (s : State) (v : Word) (r : Reg) : (writeReg s v r).params = s.params := by cases r <;> rfl
@[simp] theorem writeReg_result (s : State) (v : Word) (r : Reg) : (writeReg s v r).result = s.result := by cases r <;> rfl
@[simp] theorem writeReg_udpCsum (s : State) (v : Word) (r : Reg) : (writeReg s v r).udpCsum = s.udpCsum := by cases r <;> rfl
@[simp] theorem writeReg_ipCsum (s : State) (v : Word) (r : Reg) : (writeReg s v r).ipCsum = s.ipCsum := by cases r <;> rfl
@[simp] theorem writeReg_phase (s : State) (v : Word) (r : Reg) : (writeReg s v r).phase = s.phase := by cases r <;> rfl
@[simp] theorem writeReg_err (s : State) (v : Word) (r : Reg) : (writeReg s v r).err = s.err := by cases r <;> rfl
@[simp] theorem writeReg_buf (s : State) (v : Word) (r : Reg) : (writeReg s v r).buf = s.buf := by cases r <;> rfl
@[simp] theorem writeReg_fresh (s : State) (v : Word) (r : Reg) : (writeReg s v r).fresh = s.fresh := by cases r <;> rfl
@[simp] theorem writeReg_pending (s : State) (v : Word) (r : Reg) : (writeReg s v r).pending = s.pending := by cases r <;> rfl
@[simp] theorem writeReg_returned (s : State) (v : Word) (r : Reg) : (writeReg s v r).returned = s.returned := by cases r <;> rfl

@[simp] theorem withFetchWord_params (s : State) (nbits w : Nat) : (s.withFetchWord nbits w).params = s.params := rfl
@[simp] theorem withFetchWord_result (s : State) (nbits w : Nat) : (s.withFetchWord nbits w).result = s.result := rfl
@[simp] theorem withFetchWord_udpCsum (s : State) (nbits w : Nat) : (s.withFetchWord nbits w).udpCsum = s.udpCsum := rfl
@[simp] theorem withFetchWord_ipCsum (s : State) (nbits w : Nat) : (s.withFetchWord nbits w).ipCsum = s.ipCsum := rfl
@[simp] theorem withFetchWord_ckOff (s : State) (nbits w : Nat) : (s.withFetchWord nbits w).ckOff = s.ckOff := rfl
@[simp] theorem withFetchWord_ckLen (s : State) (nbits w : Nat) : (s.withFetchWord nbits w).ckLen = s.ckLen := rfl
@[simp] theorem withFetchWord_srcAddr (s : State) (nbits w : Nat) : (s.withFetchWord nbits w).srcAddr = s.srcAddr := rfl
@[simp] theorem withFetchWord_dstAddr (s : State) (nbits w : Nat) : (s.withFetchWord nbits w).dstAddr = s.dstAddr := rfl
@[simp] theorem withFetchWord_srcPort (s : State) (nbits w : Nat) : (s.withFetchWord nbits w).srcPort = s.srcPort := rfl
@[simp] theorem withFetchWord_dstPort (s : State) (nbits w : Nat) : (s.withFetchWord nbits w).dstPort = s.dstPort := rfl
@[simp] theorem withFetchWord_ttl (s : State) (nbits w : Nat) : (s.withFetchWord nbits w).ttl = s.ttl := rfl
@[simp] theorem withFetchWord_ident (s : State) (nbits w : Nat) : (s.withFetchWord nbits w).ident = s.ident := rfl
@[simp] theorem withFetchWord_payloadLen (s : State) (nbits w : Nat) : (s.withFetchWord nbits w).payloadLen = s.payloadLen := rfl
@[simp] theorem withFetchWord_phase (s : State) (nbits w : Nat) : (s.withFetchWord nbits w).phase = s.phase := rfl
@[simp] theorem withFetchWord_err (s : State) (nbits w : Nat) : (s.withFetchWord nbits w).err = s.err := rfl
@[simp] theorem withFetchWord_buf (s : State) (nbits w : Nat) : (s.withFetchWord nbits w).buf = s.buf := rfl
@[simp] theorem withFetchWord_fresh (s : State) (nbits w : Nat) : (s.withFetchWord nbits w).fresh = s.fresh := rfl
@[simp] theorem withFetchWord_pending (s : State) (nbits w : Nat) : (s.withFetchWord nbits w).pending = commandWrite (BitVec.ofNat 32 (w % 2 ^ nbits)) :: s.pending := rfl
@[simp] theorem withFetchWord_returned (s : State) (nbits w : Nat) : (s.withFetchWord nbits w).returned = s.returned := rfl

/-- A register the host may write reads as the value written, when it fits. -/
theorem readReg_writeReg_same (s : State) (v : Word) (r : Reg) (hr : regWritable r = true) (hv : v.toNat < 2 ^ regWidth r) :
    readReg (writeReg s v r) r = v := by
  have h32 := v.isLt
  cases r <;> simp_all [readReg, writeReg, regWritable, regWidth, BitVec.toNat_eq, Nat.mod_eq_of_lt]

/-- Writing one register leaves the value of every other as it was. -/
theorem readReg_writeReg_other (s : State) (v : Word) (r q : Reg) (h : q ≠ r) :
    readReg (writeReg s v r) q = readReg s q := by
  cases r <;> cases q <;> first | rfl | exact absurd rfl h

end Sys2Proof.Machine
end

