-- ==== Sys2Proof/Laws/Guards.lean ====
section
/-! SUPPORT. Each shared check, register write and transaction: what it does under each condition, and everything it can
do when it answers a next state. Provers cite these and do not unfold the operations. -/

namespace Sys2Proof.Machine

variable {s t : State} {k : Host.Outcome State Fault Refusal}

theorem next_inj {a b : State} : ((.next a : Host.Outcome State Fault Refusal) = .next b) ↔ a = b :=
  ⟨fun h => by injection h, fun h => by rw [h]⟩

theorem raiseError_eq (e : ErrCode) (s : State) : raiseError e s = .next { s with err := some e } := rfl

theorem faulted_eq_false : faulted s = false ↔ s.err = none := by simp [faulted]

theorem faulted_eq_true : faulted s = true ↔ s.err ≠ none := by
  cases h : s.err <;> simp [faulted, h]

theorem unlessFaulted_ok (h : s.err = none) : unlessFaulted s k = k := by simp [unlessFaulted, faulted, h]

theorem unlessFaulted_faulted (h : s.err ≠ none) : unlessFaulted s k = .next s := by
  simp [unlessFaulted, faulted_eq_true.2 h]

theorem unlessFaulted_next (h : unlessFaulted s k = .next t) :
    (s.err ≠ none ∧ t = s) ∨ (s.err = none ∧ k = .next t) := by
  by_cases hs : s.err = none
  · exact .inr ⟨hs, by rwa [unlessFaulted_ok hs] at h⟩
  · rw [unlessFaulted_faulted hs, next_inj] at h
    exact .inl ⟨hs, h.symm⟩

theorem needCleared_uninit (h : s.phase = .uninit) : needCleared s k = .next { s with err := some .uninit } := by
  simp [needCleared, h, raiseError]

theorem needCleared_cleared (h : s.phase ≠ .uninit) : needCleared s k = k := by
  cases hp : s.phase <;> simp_all [needCleared]

theorem needCleared_next (h : needCleared s k = .next t) :
    (s.phase = .uninit ∧ t = { s with err := some .uninit }) ∨ (s.phase ≠ .uninit ∧ k = .next t) := by
  by_cases hp : s.phase = .uninit
  · rw [needCleared_uninit hp, next_inj] at h
    exact .inl ⟨hp, h.symm⟩
  · exact .inr ⟨hp, by rwa [needCleared_cleared hp] at h⟩

theorem needOpen_uninit (h : s.phase = .uninit) : needOpen s k = .next { s with err := some .uninit } := by
  simp [needOpen, h, raiseError]

theorem needOpen_sealed (h : s.phase = .sealed) : needOpen s k = .next { s with err := some .sealed } := by
  simp [needOpen, h, raiseError]

theorem needOpen_opened (h : s.phase = .opened) : needOpen s k = k := by simp [needOpen, h]

theorem needOpen_next (h : needOpen s k = .next t) :
    (s.phase = .uninit ∧ t = { s with err := some .uninit }) ∨
    (s.phase = .sealed ∧ t = { s with err := some .sealed }) ∨ (s.phase = .opened ∧ k = .next t) := by
  by_cases hu : s.phase = .uninit
  · rw [needOpen_uninit hu, next_inj] at h; exact .inl ⟨hu, h.symm⟩
  by_cases hs : s.phase = .sealed
  · rw [needOpen_sealed hs, next_inj] at h; exact .inr (.inl ⟨hs, h.symm⟩)
  have ho : s.phase = .opened := by cases hp : s.phase <;> simp_all
  exact .inr (.inr ⟨ho, by rwa [needOpen_opened ho] at h⟩)

theorem needFits_over (h : s.params.pmax.val < payload s) : needFits s k = .next { s with err := some .len } := by
  simp [needFits, h, raiseError]

theorem needFits_fits (h : payload s ≤ s.params.pmax.val) : needFits s k = k := by
  simp [needFits, Nat.not_lt.2 h]

theorem needFits_next (h : needFits s k = .next t) :
    (s.params.pmax.val < payload s ∧ t = { s with err := some .len }) ∨
    (payload s ≤ s.params.pmax.val ∧ k = .next t) := by
  by_cases hp : payload s ≤ s.params.pmax.val
  · exact .inr ⟨hp, by rwa [needFits_fits hp] at h⟩
  · rw [needFits_over (by omega), next_inj] at h
    exact .inl ⟨by omega, h.symm⟩

theorem needInRange_over (h : s.params.bufBytes < s.ckOff.toNat + s.ckLen.toNat) :
    needInRange s k = .next { s with err := some .range } := by
  simp [needInRange, h, raiseError]

theorem needInRange_inside (h : s.ckOff.toNat + s.ckLen.toNat ≤ s.params.bufBytes) : needInRange s k = k := by
  simp [needInRange, Nat.not_lt.2 h]

theorem needInRange_next (h : needInRange s k = .next t) :
    (s.params.bufBytes < s.ckOff.toNat + s.ckLen.toNat ∧ t = { s with err := some .range }) ∨
    (s.ckOff.toNat + s.ckLen.toNat ≤ s.params.bufBytes ∧ k = .next t) := by
  by_cases hp : s.ckOff.toNat + s.ckLen.toNat ≤ s.params.bufBytes
  · exact .inr ⟨hp, by rwa [needInRange_inside hp] at h⟩
  · rw [needInRange_over (by omega), next_inj] at h
    exact .inl ⟨by omega, h.symm⟩

/-! The commands: everything each can do. -/

theorem execNop_next (h : execNop s = .next t) : t = s := (next_inj.1 h).symm

theorem execSrst_next (h : execSrst s = .next t) : t = resetBlock s := (next_inj.1 h).symm

theorem execClr_next (h : execClr s = .next t) :
    (s.err ≠ none ∧ t = s) ∨ (s.err = none ∧ t = { s with buf := Memory.cleared, phase := .opened }) := by
  rcases unlessFaulted_next h with h | ⟨he, h⟩
  · exact .inl h
  · exact .inr ⟨he, (next_inj.1 h).symm⟩

theorem execCsum_next (h : execCsum s = .next t) :
    (s.err ≠ none ∧ t = s) ∨
    (s.err = none ∧ s.phase = .uninit ∧ t = { s with err := some .uninit }) ∨
    (s.err = none ∧ s.phase ≠ .uninit ∧ s.params.bufBytes < s.ckOff.toNat + s.ckLen.toNat ∧
      t = { s with err := some .range }) ∨
    (s.err = none ∧ s.phase ≠ .uninit ∧ s.ckOff.toNat + s.ckLen.toNat ≤ s.params.bufBytes ∧
      t = { s with result := checksum s.buf s.ckOff.toNat s.ckLen.toNat 0 }) := by
  rcases unlessFaulted_next h with h | ⟨he, h⟩
  · exact .inl h
  rcases needCleared_next h with ⟨hp, h⟩ | ⟨hp, h⟩
  · exact .inr (.inl ⟨he, hp, h⟩)
  rcases needInRange_next h with ⟨hr, h⟩ | ⟨hr, h⟩
  · exact .inr (.inr (.inl ⟨he, hp, hr, h⟩))
  · exact .inr (.inr (.inr ⟨he, hp, hr, (next_inj.1 h).symm⟩))

/-- What a command that needs an open packet does before its own effect: ignored, or one of its refusals. -/
def RefusedOpen (s t : State) : Prop :=
  (s.err ≠ none ∧ t = s) ∨
  (s.err = none ∧ s.phase = .uninit ∧ t = { s with err := some .uninit }) ∨
  (s.err = none ∧ s.phase = .sealed ∧ t = { s with err := some .sealed }) ∨
  (s.err = none ∧ s.phase = .opened ∧ s.params.pmax.val < payload s ∧ t = { s with err := some .len })

theorem checked_next (h : unlessFaulted s (needOpen s (needFits s k)) = .next t) :
    RefusedOpen s t ∨ (s.err = none ∧ s.phase = .opened ∧ payload s ≤ s.params.pmax.val ∧ k = .next t) := by
  rcases unlessFaulted_next h with h | ⟨he, h⟩
  · exact .inl (.inl h)
  rcases needOpen_next h with ⟨hp, h⟩ | ⟨hp, h⟩ | ⟨hp, h⟩
  · exact .inl (.inr (.inl ⟨he, hp, h⟩))
  · exact .inl (.inr (.inr (.inl ⟨he, hp, h⟩)))
  rcases needFits_next h with ⟨hf, h⟩ | ⟨hf, h⟩
  · exact .inl (.inr (.inr (.inr ⟨he, hp, hf, h⟩)))
  · exact .inr ⟨he, hp, hf, h⟩

theorem checked_ok (he : s.err = none) (hp : s.phase = .opened) (hf : payload s ≤ s.params.pmax.val) :
    unlessFaulted s (needOpen s (needFits s k)) = k := by
  rw [unlessFaulted_ok he, needOpen_opened hp, needFits_fits hf]

theorem execHdr_next (h : execHdr s = .next t) :
    RefusedOpen s t ∨
    (s.err = none ∧ s.phase = .opened ∧ payload s ≤ s.params.pmax.val ∧ t = serialiseHeaders (payload s) s) :=
  (checked_next h).imp_right fun h => ⟨h.1, h.2.1, h.2.2.1, (next_inj.1 h.2.2.2).symm⟩

theorem execUdpck_next (h : execUdpck s = .next t) :
    RefusedOpen s t ∨
    (s.err = none ∧ s.phase = .opened ∧ payload s ≤ s.params.pmax.val ∧ t = udpPass (payload s) s) :=
  (checked_next h).imp_right fun h => ⟨h.1, h.2.1, h.2.2.1, (next_inj.1 h.2.2.2).symm⟩

theorem execPkt_next (h : execPkt s = .next t) :
    RefusedOpen s t ∨
    (s.err = none ∧ s.phase = .opened ∧ payload s ≤ s.params.pmax.val ∧
      t = sealPacket (ipPass (udpPass (payload s) (serialiseHeaders (payload s) s)))) :=
  (checked_next h).imp_right fun h => ⟨h.1, h.2.1, h.2.2.1, (next_inj.1 h.2.2.2).symm⟩

theorem execIpck_next (h : execIpck s = .next t) :
    (s.err ≠ none ∧ t = s) ∨
    (s.err = none ∧ s.phase = .uninit ∧ t = { s with err := some .uninit }) ∨
    (s.err = none ∧ s.phase = .sealed ∧ t = { s with err := some .sealed }) ∨
    (s.err = none ∧ s.phase = .opened ∧ t = sealPacket (ipPass s)) := by
  rcases unlessFaulted_next h with h | ⟨he, h⟩
  · exact .inl h
  rcases needOpen_next h with ⟨hp, h⟩ | ⟨hp, h⟩ | ⟨hp, h⟩
  · exact .inr (.inl ⟨he, hp, h⟩)
  · exact .inr (.inr (.inl ⟨he, hp, h⟩))
  · exact .inr (.inr (.inr ⟨he, hp, (next_inj.1 h).symm⟩))

/-! The transactions. -/

/-- Everything a register write can do. -/
theorem regWrite_next {n : BitVec 14} {v : Word} (h : regWrite n v s = .next t) :
    (s.err ≠ none ∧ n = 0 ∧ v = 0x00000007 ∧ t = resetBlock s) ∨
    (s.err ≠ none ∧ ¬ (n = 0 ∧ v = 0x00000007) ∧ t = s) ∨
    (s.err = none ∧ regOfNumber n = some .cmd ∧ execute v s = .next t) ∨
    (s.err = none ∧ (∃ e, t = { s with err := some e })) ∨
    (s.err = none ∧ ∃ r, regOfNumber n = some r ∧ regWritable r = true ∧ v.toNat < 2 ^ regWidth r ∧
      t = writeReg s v r) := by
  by_cases he : s.err = none
  · rw [regWrite, if_neg (by simp [faulted, he])] at h
    cases hr : regOfNumber n with
    | none => rw [hr] at h; exact .inr (.inr (.inr (.inl ⟨he, .access, (next_inj.1 h).symm⟩)))
    | some r =>
      simp only [hr, regStore] at h
      split at h
      · next hc => subst hc; exact .inr (.inr (.inl ⟨he, rfl, h⟩))
      · split at h
        · next hw =>
          split at h
          · exact .inr (.inr (.inr (.inl ⟨he, .width, (next_inj.1 h).symm⟩)))
          · next hv =>
            exact .inr (.inr (.inr (.inr ⟨he, r, rfl, hw, by omega, (next_inj.1 h).symm⟩)))
        · exact .inr (.inr (.inr (.inl ⟨he, .access, (next_inj.1 h).symm⟩)))
  · rw [regWrite, if_pos (faulted_eq_true.2 he)] at h
    split at h
    · next hc => exact .inl ⟨he, hc.1, hc.2, execSrst_next h⟩
    · next hc => exact .inr (.inl ⟨he, hc, (next_inj.1 h).symm⟩)

/-- Everything the execution of a command word can do. -/
theorem execute_next {v : Word} (h : execute v s = .next t) :
    (∃ i, decode v = .ok i ∧ exec i s = .next t) ∨
    ((∃ r, decode v = .error r) ∧ t = { s with err := some .opcode }) := by
  unfold execute at h
  cases hd : decode v with
  | ok i => rw [hd] at h; exact .inl ⟨i, rfl, h⟩
  | error r => rw [hd] at h; exact .inr ⟨⟨r, rfl⟩, (next_inj.1 h).symm⟩

/-- Everything a buffer write can do. -/
theorem bufWrite_next {a : BitVec 16} {b : Byte} (h : bufWrite a b s = .next t) :
    (s.err ≠ none ∧ t = s) ∨
    (s.err = none ∧ s.phase ≠ .opened ∧ ∃ e, t = { s with err := some e }) ∨
    (s.err = none ∧ s.phase = .opened ∧ s.params.bufBytes ≤ a.toNat ∧ t = { s with err := some .range }) ∨
    (s.err = none ∧ s.phase = .opened ∧ a.toNat < s.params.bufBytes ∧
      t = { s with buf := s.buf.write a.toNat b }) := by
  rcases unlessFaulted_next h with h | ⟨he, h⟩
  · exact .inl h
  rcases needOpen_next h with ⟨hp, h⟩ | ⟨hp, h⟩ | ⟨hp, h⟩
  · exact .inr (.inl ⟨he, by simp [hp], .uninit, h⟩)
  · exact .inr (.inl ⟨he, by simp [hp], .sealed, h⟩)
  split at h
  · next hr => exact .inr (.inr (.inl ⟨he, hp, hr, (next_inj.1 h).symm⟩))
  · next hr => exact .inr (.inr (.inr ⟨he, hp, by omega, (next_inj.1 h).symm⟩))

/-- Everything a step can do: nothing pending, or the oldest transaction, whole. -/
theorem step_next (h : step s = .next t) :
    (s.pending = [] ∧ t = s) ∨
    ∃ x rest, s.pending = x :: rest ∧ transact x { s with pending := rest } = .next t := by
  unfold step at h
  cases hp : s.pending with
  | nil => rw [hp] at h; exact .inl ⟨rfl, (next_inj.1 h).symm⟩
  | cons x rest => rw [hp] at h; exact .inr ⟨x, rest, rfl, h⟩

theorem step_cons {x : Txn} {rest : List Txn} (h : s.pending = x :: rest) :
    step s = transact x { s with pending := rest } := by
  simp [step, h]

end Sys2Proof.Machine
end

