-- ==== Sys2Proof/Laws/PerInstr.lean ====
section
/-! SUPPORT. The family EncodedWord: what holds of every command as syntax, one lemma per constructor. -/

namespace Sys2Proof.Laws.EncodedWord

/-- A command is well formed, its word has a zero upper field (30_encoding.md R90) and its opcode is one of the eight
assigned values (R91). -/
def Statement (i : Instr) : Prop :=
  i.wellFormed = true ∧ zeroField (encode i) = 0 ∧ opField (encode i) = opcode i ∧ (opcode i).toNat < 8

theorem nop : Statement .nop := by unfold Statement; decide
theorem csum : Statement .csum := by unfold Statement; decide
theorem clr : Statement .clr := by unfold Statement; decide
theorem hdr : Statement .hdr := by unfold Statement; decide
theorem udpck : Statement .udpck := by unfold Statement; decide
theorem ipck : Statement .ipck := by unfold Statement; decide
theorem pkt : Statement .pkt := by unfold Statement; decide
theorem srst : Statement .srst := by unfold Statement; decide

end Sys2Proof.Laws.EncodedWord
end

