-- ==== Sys2Proof/Laws/Registers.lean ====
section
/-! SUPPORT. Register numbers and registers: each of the fourteen registers has one number, the others name none. -/

namespace Sys2Proof.Machine

@[simp] theorem regOfNumber_regNumber (r : Reg) : regOfNumber (regNumber r) = some r := by cases r <;> rfl

theorem regOfNumber_eq_none {n : BitVec 14} (h : 14 ≤ n.toNat) : regOfNumber n = none := by
  unfold regOfNumber; split <;> first | omega | rfl

theorem eq_regNumber_of_regOfNumber {n : BitVec 14} {r : Reg} (h : regOfNumber n = some r) : n = regNumber r := by
  unfold regOfNumber at h
  split at h <;> first
    | (injection h with h; subst h; apply BitVec.eq_of_toNat_eq; assumption)
    | cases h

/-- A number below 14 is the number of a register. -/
theorem exists_regNumber {n : BitVec 14} (h : n.toNat < 14) : ∃ r, n = regNumber r := by
  have hw : n = BitVec.ofNat 14 n.toNat := by simp
  generalize n.toNat = k at *
  subst hw
  interval_cases k
  exacts [⟨.cmd, rfl⟩, ⟨.status, rfl⟩, ⟨.result, rfl⟩, ⟨.udpCsum, rfl⟩, ⟨.ipCsum, rfl⟩, ⟨.ckOff, rfl⟩, ⟨.ckLen, rfl⟩,
    ⟨.srcAddr, rfl⟩, ⟨.dstAddr, rfl⟩, ⟨.srcPort, rfl⟩, ⟨.dstPort, rfl⟩, ⟨.ttl, rfl⟩, ⟨.ident, rfl⟩, ⟨.payloadLen, rfl⟩]

@[simp] theorem regRead_regNumber (r : Reg) (s : State) : regRead (regNumber r) s = readReg s r := by
  rw [regRead, regOfNumber_regNumber]

/-- A register write on a block that is not faulted, less the faulted check. -/
theorem regWrite_not_faulted {s : State} (n : BitVec 14) (v : Word) (he : s.err = none) :
    regWrite n v s = match regOfNumber n with | some r => regStore r v s | none => raiseError .access s := by
  cases hr : regOfNumber n <;> simp [regWrite, faulted, he, hr]

end Sys2Proof.Machine
end

