-- ==== Sys2Proof/Laws/Serialiser.lean ====
section
/-! SUPPORT. The bytes that the serialiser and the two passes leave, address by address, and the form of the buffer after
them. -/

namespace Sys2Proof.Machine

/-- Byte `k` of a number, counted from the low end, by its value. -/
theorem extractByte_eq {w : Nat} (v : BitVec w) (k : Nat) :
    v.extractLsb' (8 * k) 8 = BitVec.ofNat 8 (v.toNat / 256 ^ k) := by
  apply BitVec.eq_of_toNat_eq
  simp [Nat.shiftRight_eq_div_pow, Nat.pow_mul]

/-- A stored 16-bit value, byte by byte, and nothing else changed. -/
theorem read_memWrite_half (m : Memory) (a : Nat) (c : Half) (x : Nat) :
    (m.memWrite a 2 c.toNat).read x =
      if x = a then c.extractLsb' 8 8 else if x = a + 1 then c.extractLsb' 0 8 else m.read x := by
  have e0 := extractByte_eq c 0
  have e1 := extractByte_eq c 1
  simp only [Nat.mul_zero, Nat.mul_one] at e0 e1
  by_cases h1 : x = a
  · subst h1; simp [Memory.read_memWrite, e1]
  by_cases h2 : x = a + 1
  · subst h2; simp [Memory.read_memWrite, e0]
  rw [Memory.read_memWrite_outside _ _ _ _ _ (by omega), if_neg h1, if_neg h2]

/-- The bytes `SerialiseHeaders` leaves. -/
theorem serialiseHeaders_read (s : State) (p x : Nat) :
    (serialiseHeaders p s).buf.read x =
      if x = 0 then 0x45 else if x = 1 then 0
      else if x = 2 then BitVec.ofNat 8 ((28 + p) / 256) else if x = 3 then BitVec.ofNat 8 (28 + p)
      else if x = 4 then BitVec.ofNat 8 (s.ident.toNat / 256) else if x = 5 then BitVec.ofNat 8 s.ident.toNat
      else if x = 6 then 0 else if x = 7 then 0 else if x = 8 then BitVec.ofNat 8 s.ttl.toNat else if x = 9 then 17
      else if x = 10 then 0 else if x = 11 then 0
      else if x = 12 then BitVec.ofNat 8 (s.srcAddr.toNat / 256 ^ 3)
      else if x = 13 then BitVec.ofNat 8 (s.srcAddr.toNat / 256 ^ 2)
      else if x = 14 then BitVec.ofNat 8 (s.srcAddr.toNat / 256) else if x = 15 then BitVec.ofNat 8 s.srcAddr.toNat
      else if x = 16 then BitVec.ofNat 8 (s.dstAddr.toNat / 256 ^ 3)
      else if x = 17 then BitVec.ofNat 8 (s.dstAddr.toNat / 256 ^ 2)
      else if x = 18 then BitVec.ofNat 8 (s.dstAddr.toNat / 256) else if x = 19 then BitVec.ofNat 8 s.dstAddr.toNat
      else if x = 20 then BitVec.ofNat 8 (s.srcPort.toNat / 256) else if x = 21 then BitVec.ofNat 8 s.srcPort.toNat
      else if x = 22 then BitVec.ofNat 8 (s.dstPort.toNat / 256) else if x = 23 then BitVec.ofNat 8 s.dstPort.toNat
      else if x = 24 then BitVec.ofNat 8 ((8 + p) / 256) else if x = 25 then BitVec.ofNat 8 (8 + p)
      else if x = 26 then 0 else if x = 27 then 0 else s.buf.read x := by
  by_cases hx : x < 28
  · interval_cases x <;>
      simp [serialiseHeaders, udpHeader, ipHeader, Memory.read_memWrite, versionIhl, Config.version, Config.ihl,
        Config.dscpEcn, Config.flagsFrag, Config.protocol, totalLength, udpLength]
  · simp only [serialiseHeaders, udpHeader, ipHeader]
    repeat rw [Memory.read_memWrite_outside _ _ _ _ _ (by omega)]
    repeat rw [if_neg (by omega)]

/-- `SerialiseHeaders` writes no byte from address 28 up. -/
theorem serialiseHeaders_read_above (p : Nat) (s : State) {x : Nat} (h : 28 ≤ x) :
    (serialiseHeaders p s).buf.read x = s.buf.read x := by
  rw [serialiseHeaders_read]
  repeat rw [if_neg (by omega)]

/-- The bytes the UDP pass leaves. -/
theorem udpPass_read (p : Nat) (s : State) (x : Nat) :
    (udpPass p s).buf.read x =
      if x = 26 then (udpChecksum p s).extractLsb' 8 8
      else if x = 27 then (udpChecksum p s).extractLsb' 0 8 else s.buf.read x := by
  rw [udpPass_buf, read_memWrite_half]
  by_cases h1 : x = 26
  · rw [if_pos h1, if_pos h1]
  by_cases h2 : x = 27
  · rw [if_neg h1, if_neg h1, if_pos h2, if_pos h2]
  rw [if_neg h1, if_neg h1, if_neg h2, if_neg h2, Memory.read_memWrite_outside _ _ _ _ _ (by omega)]

/-- The bytes the IPv4 pass leaves. -/
theorem ipPass_read (s : State) (x : Nat) :
    (ipPass s).buf.read x =
      if x = 10 then (ipChecksum s).extractLsb' 8 8
      else if x = 11 then (ipChecksum s).extractLsb' 0 8 else s.buf.read x := by
  rw [ipPass_buf, read_memWrite_half]
  by_cases h1 : x = 10
  · rw [if_pos h1, if_pos h1]
  by_cases h2 : x = 11
  · rw [if_neg h1, if_neg h1, if_pos h2, if_pos h2]
  rw [if_neg h1, if_neg h1, if_neg h2, if_neg h2, Memory.read_memWrite_outside _ _ _ _ _ (by omega)]

theorem wf_serialiseHeaders {s : State} (h : s.buf.wf) (p : Nat) : (serialiseHeaders p s).buf.wf := by
  simp only [serialiseHeaders_buf, udpHeader, ipHeader]
  iterate 14 apply Memory.wf_memWrite
  exact h

theorem wf_udpPass {s : State} (h : s.buf.wf) (p : Nat) : (udpPass p s).buf.wf := by
  rw [udpPass_buf]; exact Memory.wf_memWrite (Memory.wf_memWrite h _ _ _) _ _ _

theorem wf_ipPass {s : State} (h : s.buf.wf) : (ipPass s).buf.wf := by
  rw [ipPass_buf]; exact Memory.wf_memWrite (Memory.wf_memWrite h _ _ _) _ _ _

@[simp] theorem serialiseHeaders_fill (p : Nat) (s : State) : (serialiseHeaders p s).buf.fill = s.buf.fill := by
  simp [udpHeader, ipHeader]

end Sys2Proof.Machine
end

