-- ==== Sys2Proof/Laws/Step.lean ====
section
/-! SUPPORT. Everything a command can do, and everything a transaction can do but for the command it carries: one
inversion each, so that an invariant is proved by one case analysis. -/

namespace Sys2Proof.Machine

/-- What a command can turn a state into, by the command. -/
theorem exec_next_cases {i : Instr} {s t : State} (h : exec i s = .next t) :
    t = s ∨ (∃ e, t = { s with err := some e }) ∨ (i = .csum ∧ ∃ v, t = { s with result := v }) ∨
    (i = .clr ∧ s.err = none ∧ t = { s with buf := Memory.cleared, phase := .opened }) ∨
    (i = .srst ∧ t = resetBlock s) ∨
    (i = .hdr ∧ s.phase = .opened ∧ payload s ≤ s.params.pmax.val ∧ t = serialiseHeaders (payload s) s) ∨
    (i = .udpck ∧ s.phase = .opened ∧ payload s ≤ s.params.pmax.val ∧ t = udpPass (payload s) s) ∨
    (i = .ipck ∧ s.phase = .opened ∧ t = sealPacket (ipPass s)) ∨
    (i = .pkt ∧ s.phase = .opened ∧ payload s ≤ s.params.pmax.val ∧
      t = sealPacket (ipPass (udpPass (payload s) (serialiseHeaders (payload s) s)))) := by
  have ref : RefusedOpen s t → t = s ∨ (∃ e, t = { s with err := some e }) := by
    rintro (⟨_, h⟩ | ⟨_, _, h⟩ | ⟨_, _, h⟩ | ⟨_, _, _, h⟩)
    · exact .inl h
    all_goals exact .inr ⟨_, h⟩
  cases i with
  | nop => exact .inl (execNop_next h)
  | srst => exact .inr (.inr (.inr (.inr (.inl ⟨rfl, execSrst_next h⟩))))
  | clr =>
    rcases execClr_next h with ⟨_, h⟩ | ⟨h1, h⟩
    · exact .inl h
    · exact .inr (.inr (.inr (.inl ⟨rfl, h1, h⟩)))
  | csum =>
    rcases execCsum_next h with ⟨_, h⟩ | ⟨_, _, h⟩ | ⟨_, _, _, h⟩ | ⟨_, _, _, h⟩
    · exact .inl h
    · exact .inr (.inl ⟨_, h⟩)
    · exact .inr (.inl ⟨_, h⟩)
    · exact .inr (.inr (.inl ⟨rfl, _, h⟩))
  | hdr =>
    rcases execHdr_next h with h | ⟨_, h1, h2, h⟩
    · exact (ref h).imp_right .inl
    · exact .inr (.inr (.inr (.inr (.inr (.inl ⟨rfl, h1, h2, h⟩)))))
  | udpck =>
    rcases execUdpck_next h with h | ⟨_, h1, h2, h⟩
    · exact (ref h).imp_right .inl
    · exact .inr (.inr (.inr (.inr (.inr (.inr (.inl ⟨rfl, h1, h2, h⟩))))))
  | ipck =>
    rcases execIpck_next h with ⟨_, h⟩ | ⟨_, _, h⟩ | ⟨_, _, h⟩ | ⟨_, h1, h⟩
    · exact .inl h
    · exact .inr (.inl ⟨_, h⟩)
    · exact .inr (.inl ⟨_, h⟩)
    · exact .inr (.inr (.inr (.inr (.inr (.inr (.inr (.inl ⟨rfl, h1, h⟩)))))))
  | pkt =>
    rcases execPkt_next h with h | ⟨_, h1, h2, h⟩
    · exact (ref h).imp_right .inl
    · exact .inr (.inr (.inr (.inr (.inr (.inr (.inr (.inr ⟨rfl, h1, h2, h⟩)))))))

/-- What a transaction can turn a state into, by the transaction. -/
theorem transact_next {x : Txn} {s t : State} (h : transact x s = .next t) :
    t = s ∨ (∃ e, t = { s with err := some e }) ∨ (∃ r, t = { s with returned := r :: s.returned }) ∨
    (x = .reset ∧ t = resetBlock s) ∨
    (∃ v i, x = .regWrite 0 v ∧ decode v = .ok i ∧ exec i s = .next t) ∨
    (∃ r v, x = .regWrite (regNumber r) v ∧ s.err = none ∧ regWritable r = true ∧ v.toNat < 2 ^ regWidth r ∧
      t = writeReg s v r) ∨
    (∃ a b, x = .bufWrite a b ∧ s.err = none ∧ s.phase = .opened ∧ a.toNat < s.params.bufBytes ∧
      t = { s with buf := s.buf.write a.toNat b }) := by
  cases x with
  | reset => exact .inr (.inr (.inr (.inl ⟨rfl, (next_inj.1 h).symm⟩)))
  | regRead => exact .inr (.inr (.inl ⟨_, (next_inj.1 h).symm⟩))
  | bufRead => exact .inr (.inr (.inl ⟨_, (next_inj.1 h).symm⟩))
  | bufWrite a b =>
    rcases bufWrite_next h with ⟨_, ht⟩ | ⟨_, _, e, ht⟩ | ⟨_, _, _, ht⟩ | ⟨h0, h1, h2, ht⟩
    · exact .inl ht
    · exact .inr (.inl ⟨_, ht⟩)
    · exact .inr (.inl ⟨_, ht⟩)
    · exact .inr (.inr (.inr (.inr (.inr (.inr ⟨a, b, rfl, h0, h1, h2, ht⟩)))))
  | regWrite n v =>
    rcases regWrite_next h with ⟨_, hn, hv, ht⟩ | ⟨_, _, ht⟩ | ⟨_, hc, hx⟩ | ⟨_, e, ht⟩ | ⟨he, r, hr, hw, hv, ht⟩
    · subst hn hv
      exact .inr (.inr (.inr (.inr (.inl ⟨_, .srst, rfl, by decide, by rw [ht]; rfl⟩))))
    · exact .inl ht
    · have hn : n = 0 := eq_regNumber_of_regOfNumber hc
      subst hn
      rcases execute_next hx with ⟨i, hd, hi⟩ | ⟨_, ht⟩
      · exact .inr (.inr (.inr (.inr (.inl ⟨v, i, rfl, hd, hi⟩))))
      · exact .inr (.inl ⟨_, ht⟩)
    · exact .inr (.inl ⟨_, ht⟩)
    · rw [eq_regNumber_of_regOfNumber hr]
      exact .inr (.inr (.inr (.inr (.inr (.inl ⟨r, v, rfl, he, hw, hv, ht⟩)))))

end Sys2Proof.Machine
end

