-- ==== Sys2Proof/Tests/Slice0.lean ====
section
/-! SUPPORT. Tests: the refusals of WellFormed, words of every command and illegal words, one-step tests with the expected
values of 95_test_vectors.md, and a witness for every obligation that has hypotheses. -/

namespace Sys2Proof.Tests

open Sys2Proof Sys2Proof.Machine

/-! ## Small states -/

/-- A field of the next state of an outcome. -/
def nextOf {α : Type} (o : Host.Outcome State Fault Refusal) (f : State → α) : Option α :=
  match o with
  | .next s => some (f s)
  | .fault _ => none
  | .refused _ => none

/-- After `reset`, `cmd CLR`. -/
def opened : State := { State.reset with phase := .opened, buf := Memory.cleared }

/-- After `reset`, `cmd CLR`, `cmd IPCK` less the bytes it writes: a sealed block. -/
def closed : State := { opened with phase := .sealed }

/-- A block whose buffer has 28 bytes (95_test_vectors.md 2.7). -/
def smallest : State := { opened with params := { pmax := 0, udpPseudo := false, slot := 0 } }

/-- `s` with the error `e` recorded. -/
def fail (e : ErrCode) (s : State) : State := { s with err := some e }

/-- `s` with the transactions `ts` to come. -/
def waiting (ts : List Txn) (s : State) : State := { s with pending := ts }

/-- `s` with UDP_PSEUDO = 1. -/
def withPseudo (s : State) : State := { s with params := { pmax := 65507, udpPseudo := true, slot := 0 } }

/-- `s` with `bytes` in the buffer from address `a` up. -/
def loaded (a : Nat) (bytes : List Byte) (s : State) : State := { s with buf := s.buf.load a bytes }

/-- `s` with the range `off, len` in CK_OFF and CK_LEN. -/
def range (off len : Half) (s : State) : State := { s with ckOff := off, ckLen := len }

/-- 95_test_vectors.md V20 less its `cmd HDR`: the golden configuration, its payload loaded. -/
def golden : State :=
  { loaded 28 [0x4C, 0x65, 0x74, 0x73, 0x20, 0x67, 0x6F, 0x0A] opened with
    srcAddr := dottedQuad 1 0 0 127
    dstAddr := dottedQuad 1 0 0 127
    srcPort := 34567
    dstPort := 34568
    ttl := 65
    payloadLen := 16 }

/-- 95_test_vectors.md V47 with UDP_PSEUDO = 1: the second configuration, its three payload bytes loaded. -/
def second : State :=
  { withPseudo (loaded 28 [0x01, 0x02, 0x03] opened) with
    srcAddr := 0xC0A80001
    dstAddr := 0xC0A800C7
    srcPort := 0x1234
    dstPort := 0x0035
    ttl := 0x40
    ident := 0xBEEF
    payloadLen := 3 }

/-- The golden payload with another byte after it, in a buffer of 36 bytes, on a block with a past. -/
def other : State :=
  { golden with
    payloadLen := 8
    buf := golden.buf.write 36 0x21
    udpCsum := 1
    returned := [.byte 1]
    params := { pmax := 8, udpPseudo := false, slot := 0 } }

/-! ## WellFormed -/

theorem test_params_recommended : Params.ofNumbers 65535 0 0 = some Params.recommended := by decide
theorem test_params_smallest : (Params.ofNumbers 28 1 0x40000).map (fun p => (p.bufBytes, p.udpPseudo, p.base)) =
    some (28, true, 0x40000) := by decide
theorem test_params_refuse_buffer_too_small : Params.ofNumbers 27 0 0 = none := by decide
theorem test_params_refuse_buffer_too_large : Params.ofNumbers 65536 0 0 = none := by decide
theorem test_params_refuse_pseudo_not_a_bit : Params.ofNumbers 65535 2 0 = none := by decide
theorem test_params_refuse_base_unaligned : Params.ofNumbers 65535 0 0x10000 = none := by decide
theorem test_every_command_is_well_formed : ∀ i ∈ [Instr.nop, .csum, .clr, .hdr, .udpck, .ipck, .pkt, .srst],
    i.wellFormed = true := by decide

/-! ## Decoding: the words of 30_encoding.md R91 and the illegal ones of 95_test_vectors.md V58 to V63 -/

theorem test_decode_nop : decode 0b00000000000000000000000000000000 = .ok .nop := by decide
theorem test_decode_csum : decode 0b00000000000000000000000000000001 = .ok .csum := by decide
theorem test_decode_clr : decode 0b00000000000000000000000000000010 = .ok .clr := by decide
theorem test_decode_hdr : decode 0b00000000000000000000000000000011 = .ok .hdr := by decide
theorem test_decode_udpck : decode 0b00000000000000000000000000000100 = .ok .udpck := by decide
theorem test_decode_ipck : decode 0b00000000000000000000000000000101 = .ok .ipck := by decide
theorem test_decode_pkt : decode 0b00000000000000000000000000000110 = .ok .pkt := by decide
theorem test_decode_srst : decode 0b00000000000000000000000000000111 = .ok .srst := by decide
theorem test_decode_refuses_reserved_opcodes :
    decode 0x00000008 = .error .reservedOpcode ∧ decode 0x000000FF = .error .reservedOpcode := by decide
theorem test_decode_refuses_upper_bits :
    decode 0x00000100 = .error .upperBitsSet ∧ decode 0x00000107 = .error .upperBitsSet ∧
    decode 0x80000001 = .error .upperBitsSet ∧ decode 0xFFFFFFFF = .error .upperBitsSet := by decide
theorem test_table_word : decodeTableWord 32 6 = some .pkt ∧ decodeTableWord 32 0x106 = none := by decide

/-! ## The commands, one step each, with the values of 95_test_vectors.md -/

/-- V64, on a sealed block. -/
theorem test_nop_keeps_status : nextOf (step (closed.withFetchWord 32 0)) (regRead 1) = some 0x00000002 := by decide
/-- V90: on a faulted block. -/
theorem test_nop_faulted : nextOf (step ((fail .uninit State.reset).withFetchWord 32 0)) (regRead 1) = some 0x00000200 := by
  decide

/-- V11: odd offset, odd length, two folds. -/
theorem test_csum_odd_range :
    nextOf (step ((range 1 5 (loaded 0 [0xFF, 0xFF, 0xFF, 0xFF, 0x00, 0x01] opened)).withFetchWord 32 1)) (regRead 2) =
      some 0x0000FFFE := by decide +kernel
/-- V14b: the sum of the two registers does not wrap. -/
theorem test_csum_range_does_not_wrap :
    nextOf (step ((range 0xFFFF 0xFFFF opened).withFetchWord 32 1)) (regRead 1) = some 0x00000501 := by decide

/-- V32: from SEALED, the registers persist. -/
theorem test_clr_from_sealed :
    nextOf (step ({ golden with phase := .sealed, udpCsum := 0xA18D } |>.withFetchWord 32 2))
      (fun s => (regRead 1 s, bufRead 28 s, regRead 3 s, regRead 11 s)) =
      some (0x00000001, 0x00, 0x0000A18D, 0x00000041) := by decide
/-- V90: ignored on a faulted block. -/
theorem test_clr_faulted :
    nextOf (step ((fail .uninit State.reset).withFetchWord 32 2)) (regRead 1) = some 0x00000200 := by decide

/-- V20. -/
theorem test_hdr_golden :
    nextOf (step (golden.withFetchWord 32 3)) State.packet =
      some [0x45, 0x00, 0x00, 0x2C, 0x00, 0x00, 0x00, 0x00, 0x41, 0x11, 0x00, 0x00, 0x01, 0x00, 0x00, 0x7F, 0x01, 0x00,
        0x00, 0x7F, 0x87, 0x07, 0x87, 0x08, 0x00, 0x18, 0x00, 0x00, 0x4C, 0x65, 0x74, 0x73, 0x20, 0x67, 0x6F, 0x0A, 0x00,
        0x00, 0x00, 0x00, 0x00, 0x00, 0x00, 0x00] := by decide +kernel
/-- V27: P = PMAX + 1. -/
theorem test_hdr_too_long :
    nextOf (step ({ opened with payloadLen := 65508 }.withFetchWord 32 3)) (fun s => (regRead 1 s, bufRead 0 s)) =
      some (0x00000401, 0x00) := by decide

/-- V41: UDPCK without HDR. -/
theorem test_udpck_without_hdr :
    nextOf (step (golden.withFetchWord 32 4)) (fun s => (regRead 3 s, bufRead 26 s, bufRead 27 s, regRead 1 s)) =
      some (0x0000AFB5, 0xAF, 0xB5, 0x00000001) := by decide +kernel
/-- V54 with UDP_PSEUDO = 1. -/
theorem test_udpck_pseudo :
    nextOf (step ((withPseudo opened).withFetchWord 32 4)) (regRead 3) = some 0x0000FFE6 := by decide +kernel

/-- V38: IPCK without HDR, and the seal. -/
theorem test_ipck_without_hdr :
    nextOf (step (opened.withFetchWord 32 5)) (fun s => (regRead 4 s, bufRead 10 s, bufRead 11 s, regRead 1 s)) =
      some (0x0000FFFF, 0xFF, 0xFF, 0x00000002) := by decide +kernel
/-- V45 and R214: IPCK cannot be repeated. -/
theorem test_ipck_sealed : nextOf (step (closed.withFetchWord 32 5)) (regRead 1) = some 0x00000302 := by decide

/-- V21: the golden packet. -/
theorem test_pkt_golden :
    nextOf (step (golden.withFetchWord 32 6)) (fun s => (s.packet, regRead 3 s, regRead 4 s, regRead 1 s)) =
      some ([0x45, 0x00, 0x00, 0x2C, 0x00, 0x00, 0x00, 0x00, 0x41, 0x11, 0x76, 0xC4, 0x01, 0x00, 0x00, 0x7F, 0x01, 0x00,
        0x00, 0x7F, 0x87, 0x07, 0x87, 0x08, 0x00, 0x18, 0xA1, 0x8D, 0x4C, 0x65, 0x74, 0x73, 0x20, 0x67, 0x6F, 0x0A, 0x00,
        0x00, 0x00, 0x00, 0x00, 0x00, 0x00, 0x00], 0x0000A18D, 0x000076C4, 0x00000002) := by decide +kernel
/-- V47 with UDP_PSEUDO = 1: odd payload. -/
theorem test_pkt_odd_payload_pseudo :
    nextOf (step (second.withFetchWord 32 6))
      (fun s => (regRead 3 s, regRead 4 s, bufRead 10 s, bufRead 26 s)) = some (0x00006754, 0x000039C6, 0x39, 0x67) := by
  decide +kernel

/-- V91: after an error on a sealed packet. -/
theorem test_srst_faulted :
    nextOf (step ((fail .sealed { golden with phase := .sealed }).withFetchWord 32 7))
      (fun s => (regRead 1 s, bufRead 0 s, regRead 7 s)) = some (0x00000000, 0x00, 0x00000000) := by decide
/-- V61 and V90: 0x00000107 is not SRST. -/
theorem test_srst_needs_the_exact_word :
    nextOf (step ((fail .uninit State.reset).withFetchWord 32 0x107)) (regRead 1) = some 0x00000200 ∧
    nextOf (step (opened.withFetchWord 32 0x107)) (regRead 1) = some 0x00000101 := by decide

/-! ## The transactions (95_test_vectors.md 2.5) -/

/-- V76. -/
theorem test_width_error :
    nextOf (step (waiting [lineWr .ident 0x10000] State.reset)) (fun s => (regRead 1 s, regRead 12 s)) =
      some (0x00000700, 0) := by decide
/-- V79: E_ACCESS before E_WIDTH. -/
theorem test_access_error :
    nextOf (step (waiting [lineWr .result 0xFFFFFFFF] State.reset)) (regRead 1) = some 0x00000600 := by decide
/-- V78. -/
theorem test_word_register :
    nextOf (step (waiting [lineWr .srcAddr 0xFFFFFFFF] State.reset)) (fun s => (regRead 7 s, regRead 1 s)) =
      some (0xFFFFFFFF, 0) := by decide
/-- V82, V83: the last byte of the buffer and the first address beyond it. -/
theorem test_buffer_end :
    nextOf (step (waiting [.bufWrite 65534 0x7E] opened)) (fun s => (bufRead 65534 s, regRead 1 s)) =
      some (0x7E, 0x00000001) ∧
    nextOf (step (waiting [.bufWrite 65535 0x01] opened)) (regRead 1) = some 0x00000501 := by decide
/-- V85: the phase error comes first. -/
theorem test_buffer_phase_first :
    nextOf (step (waiting [.bufWrite 65535 0x01] State.reset)) (regRead 1) = some 0x00000200 := by decide
/-- V80: reads are gated to 0 in UNINIT. -/
theorem test_gated_read :
    nextOf (step (waiting [.bufRead 28] { golden with phase := .uninit })) (·.returned) = some [.byte 0x00] := by decide
/-- P1's `loads 28` line, its first and last bus writes. -/
theorem test_loads_line :
    lineLoads 28 ['L', 'e', 't', 's', ' ', 'g', 'o', '\n'] =
      lineLoad 28 [0x4C, 0x65, 0x74, 0x73, 0x20, 0x67, 0x6F, 0x0A] ∧
    decodeAccess Params.recommended (.write8 0x1001C 0x4C) = .ok (.bufWrite 28 0x4C) ∧
    decodeAccess Params.recommended (.write32 0x0001C 0x0100007F) = .ok (lineWr .srcAddr (dottedQuad 1 0 0 127)) ∧
    lineDump 65535 2 = none := by decide

/-! ## Witnesses: states and operands that meet all hypotheses of an obligation together -/

theorem witness_ResetTransactionResets :
    (waiting [.reset, .regRead 1] (fail .width golden)).pending = .reset :: [.regRead 1] := by decide

theorem witness_SoftResetResets :
    (fail .len golden).err = some .len ∧ decode 0x00000007 = .ok .srst ∧ (0x00000107 : Word) ≠ 0x00000007 := by decide

theorem witness_DecodeAndEncodeAgree :
    Instr.srst.wellFormed = true ∧ decode 0x00000007 = .ok .srst ∧ (0x00000007 : Word).toNat < 8 ∧
    ¬ (0x00000008 : Word).toNat < 8 := by decide

theorem witness_StepRunsTheDecodedCommand :
    (waiting [.regWrite 0 6] golden).err = none ∧ (waiting [.regWrite 0 6] golden).pending = .regWrite 0 6 :: [] ∧
    decode 6 = .ok .pkt := by decide

theorem witness_IllegalWordRaisesOpcodeError_opcode :
    (waiting [.regWrite 0 8] golden).err = none ∧ (waiting [.regWrite 0 8] golden).pending = .regWrite 0 8 :: [] ∧
    0x08 ≤ ((8 : Word).extractLsb' 0 8).toNat := by decide
theorem witness_IllegalWordRaisesOpcodeError_upper :
    (waiting [.regWrite 0 0x100] golden).err = none ∧
    (waiting [.regWrite 0 0x100] golden).pending = .regWrite 0 0x100 :: [] ∧
    (0x100 : Word).extractLsb' 8 24 ≠ 0 := by decide

theorem witness_IdleBlockHoldsItsState : golden.pending = [] := by decide

theorem witness_ParametersAreFixed :
    ∃ t, step (waiting [.reset] (withPseudo golden)) = .next t ∧ (withPseudo golden).params ≠ Params.recommended :=
  ⟨_, rfl, by decide⟩

theorem witness_StatusWordLayout : golden.err = none ∧ (fail .width closed).err = some .width := by decide

theorem witness_RegReadReturnsTheRegister :
    ∀ n ∈ [(0 : BitVec 14), 1, 2, 3, 4, 5, 6, 7, 8, 9, 10, 11, 12, 13, 14, 16383],
      (waiting [.regRead n] (fail .width golden)).pending = .regRead n :: [] := fun _ _ => rfl
theorem witness_RegReadReturnsTheRegister_reserved :
    14 ≤ (14 : BitVec 14).toNat ∧ ¬ 14 ≤ (13 : BitVec 14).toNat := by decide

theorem witness_RegWriteStoresOrRefuses_faulted :
    (waiting [.regWrite 0 7] (fail .len golden)).pending = .regWrite 0 7 :: [] ∧
    (waiting [.regWrite 0 7] (fail .len golden)).err ≠ none ∧
    (waiting [.regWrite 11 7] (fail .len golden)).err ≠ none ∧
    ¬ ((11 : BitVec 14) = 0 ∧ (7 : Word) = 0x00000007) := by decide
theorem witness_RegWriteStoresOrRefuses_command :
    (waiting [.regWrite 0 6] golden).pending = .regWrite 0 6 :: [] ∧ golden.err = none := by decide
theorem witness_RegWriteStoresOrRefuses_access (n : BitVec 14) (_ : n ∈ [(1 : BitVec 14), 4, 14, 16383]) :
    (waiting [.regWrite n 0] golden).pending = .regWrite n 0 :: [] ∧ (waiting [.regWrite n 0] golden).err = none :=
  ⟨rfl, rfl⟩
theorem witness_RegWriteStoresOrRefuses_access_range :
    (1 ≤ (1 : BitVec 14).toNat ∧ (1 : BitVec 14).toNat ≤ 4) ∧ (1 ≤ (4 : BitVec 14).toNat ∧ (4 : BitVec 14).toNat ≤ 4) ∧
    14 ≤ (14 : BitVec 14).toNat ∧ 14 ≤ (16383 : BitVec 14).toNat := by decide
theorem witness_RegWriteStoresOrRefuses_width :
    (waiting [.regWrite 11 256] golden).pending = .regWrite 11 256 :: [] ∧ (waiting [.regWrite 11 256] golden).err = none ∧
    5 ≤ (11 : BitVec 14).toNat ∧ (11 : BitVec 14).toNat ≤ 13 ∧
    2 ^ widthOfNumber (11 : BitVec 14).toNat ≤ (256 : Word).toNat := by decide
theorem witness_RegWriteStoresOrRefuses_stored :
    (waiting [.regWrite 5 65535] closed).pending = .regWrite 5 65535 :: [] ∧ (waiting [.regWrite 5 65535] closed).err = none ∧
    5 ≤ (5 : BitVec 14).toNat ∧ (5 : BitVec 14).toNat ≤ 13 ∧
    (65535 : Word).toNat < 2 ^ widthOfNumber (5 : BitVec 14).toNat ∧
    (0xFFFFFFFF : Word).toNat < 2 ^ widthOfNumber (8 : BitVec 14).toNat ∧
    (65535 : Word).toNat < 2 ^ widthOfNumber (13 : BitVec 14).toNat := by decide

theorem witness_BufReadReturnsTheByteOrZero_zero :
    (waiting [.bufRead 0] State.reset).pending = .bufRead 0 :: [] ∧ (waiting [.bufRead 0] State.reset).phase = .uninit ∧
    smallest.params.bufBytes ≤ (28 : BitVec 16).toNat ∧ golden.params.bufBytes ≤ (65535 : BitVec 16).toNat := by decide
theorem witness_BufReadReturnsTheByteOrZero_byte :
    (waiting [.bufRead 27] smallest).pending = .bufRead 27 :: [] ∧ (waiting [.bufRead 27] smallest).phase ≠ .uninit ∧
    (27 : BitVec 16).toNat < smallest.params.bufBytes ∧ (65534 : BitVec 16).toNat < golden.params.bufBytes := by decide

theorem witness_BufWriteStoresOneByteOrRefuses_refused :
    (waiting [.bufWrite 28 1] (fail .len golden)).pending = .bufWrite 28 1 :: [] ∧
    (waiting [.bufWrite 28 1] (fail .len golden)).err ≠ none ∧
    (waiting [.bufWrite 28 1] State.reset).err = none ∧ (waiting [.bufWrite 28 1] State.reset).phase = .uninit ∧
    (waiting [.bufWrite 28 1] closed).err = none ∧ (waiting [.bufWrite 28 1] closed).phase = .sealed := by decide
theorem witness_BufWriteStoresOneByteOrRefuses_range :
    (waiting [.bufWrite 28 1] smallest).pending = .bufWrite 28 1 :: [] ∧ (waiting [.bufWrite 28 1] smallest).err = none ∧
    (waiting [.bufWrite 28 1] smallest).phase = .opened ∧ smallest.params.bufBytes ≤ (28 : BitVec 16).toNat := by decide
theorem witness_BufWriteStoresOneByteOrRefuses_stored :
    (waiting [.bufWrite 27 1] smallest).pending = .bufWrite 27 1 :: [] ∧ (waiting [.bufWrite 27 1] smallest).err = none ∧
    (waiting [.bufWrite 27 1] smallest).phase = .opened ∧ (27 : BitVec 16).toNat < smallest.params.bufBytes := by decide

theorem witness_ErrorEntryIsPrecise :
    ∃ t, (waiting [.bufWrite 28 1] closed).err = none ∧ step (waiting [.bufWrite 28 1] closed) = .next t ∧
      t.err = some .sealed := ⟨_, by decide, rfl, by decide⟩

theorem witness_ErrorEntryIsPrecise_faulted :
    ∃ t, (waiting [.bufWrite 28 1] (fail .len closed)).err = some .len ∧
      step (waiting [.bufWrite 28 1] (fail .len closed)) = .next t ∧ t.err = some .len := ⟨_, by decide, rfl, by decide⟩

theorem witness_CommandErrorsAreRaisedExactly_uninit :
    ∃ t, State.reset.err = none ∧ exec .csum State.reset = .next t ∧ t.err = some .uninit := ⟨_, by decide, rfl, by decide⟩
theorem witness_CommandErrorsAreRaisedExactly_sealed :
    ∃ t, closed.err = none ∧ exec .udpck closed = .next t ∧ t.err = some .sealed := ⟨_, by decide, rfl, by decide⟩
theorem witness_CommandErrorsAreRaisedExactly_len :
    ∃ t, { smallest with payloadLen := 1 }.err = none ∧ exec .pkt { smallest with payloadLen := 1 } = .next t ∧
      t.err = some .len := ⟨_, by decide, rfl, by decide⟩
theorem witness_CommandErrorsAreRaisedExactly_range :
    ∃ t, (range 0 29 smallest).err = none ∧ exec .csum (range 0 29 smallest) = .next t ∧ t.err = some .range :=
  ⟨_, by decide, rfl, by decide⟩

theorem witness_CommandErrorsAreRaisedExactly_bufWrite :
    (∃ t, State.reset.err = none ∧ transact (.bufWrite 0 1) State.reset = .next t ∧ t.err = some .uninit) ∧
    (∃ t, closed.err = none ∧ transact (.bufWrite 0 1) closed = .next t ∧ t.err = some .sealed) ∧
    (∃ t, smallest.err = none ∧ transact (.bufWrite 28 1) smallest = .next t ∧ t.err = some .range) ∧
    (∃ t, smallest.err = none ∧ transact (.bufWrite 27 1) smallest = .next t ∧ t.err = none) :=
  ⟨⟨_, by decide, rfl, by decide⟩, ⟨_, by decide, rfl, by decide⟩, ⟨_, by decide, rfl, by decide⟩,
    ⟨_, by decide, rfl, by decide⟩⟩
theorem witness_CommandErrorsAreRaisedExactly_read :
    ∃ t, transact (.bufRead 65535) golden = .next t ∧ t.err = golden.err := ⟨_, rfl, rfl⟩

theorem witness_RegisterErrorsAreRaisedExactly_access :
    ∃ t, golden.err = none ∧ transact (.regWrite 14 0) golden = .next t ∧ t.err = some .access := ⟨_, by decide, rfl, by decide⟩
theorem witness_RegisterErrorsAreRaisedExactly_width :
    ∃ t, golden.err = none ∧ transact (.regWrite 13 65536) golden = .next t ∧ t.err = some .width :=
  ⟨_, by decide, rfl, by decide⟩

theorem witness_FaultedBlockIgnoresWrites :
    (waiting [.regWrite 0 0x107] (fail .len golden)).err ≠ none ∧
    (waiting [.regWrite 0 0x107] (fail .len golden)).pending = .regWrite 0 0x107 :: [] ∧
    worksWhenFaulted (.regWrite 0 0x107) = false ∧ worksWhenFaulted (.bufWrite 0 1) = false ∧
    worksWhenFaulted (.regWrite 11 7) = false ∧ (2 : BitVec 14) ≠ 1 := by decide

theorem witness_OnlyResetsClearAnError :
    ∃ t, (waiting [.regWrite 0 7] (fail .len golden)).err = some .len ∧
      step (waiting [.regWrite 0 7] (fail .len golden)) = .next t ∧ t.err ≠ some .len := ⟨_, by decide, rfl, by decide⟩

theorem witness_ClrZeroesTheBufferAndOpens :
    golden.err = none ∧ ∃ t, State.reset.phase = .uninit ∧ exec .clr State.reset = .next t ∧ t.phase ≠ .uninit :=
  ⟨by decide, _, by decide, rfl, by decide⟩

theorem witness_CsumStoresTheRangeChecksum_refused :
    State.reset.err = none ∧ State.reset.phase = .uninit ∧ (range 65535 1 opened).err = none ∧
    (range 65535 1 opened).phase ≠ .uninit ∧
    (range 65535 1 opened).params.bufBytes < (range 65535 1 opened).ckOff.toNat + (range 65535 1 opened).ckLen.toNat := by
  decide
theorem witness_CsumStoresTheRangeChecksum_summed :
    (range 0 65535 closed).err = none ∧ (range 0 65535 closed).phase ≠ .uninit ∧
    (range 0 65535 closed).ckOff.toNat + (range 0 65535 closed).ckLen.toNat ≤ (range 0 65535 closed).params.bufBytes := by
  decide
theorem witness_CsumStoresTheRangeChecksum_empty :
    (range 65535 0 opened).err = none ∧ (range 65535 0 opened).phase ≠ .uninit ∧
    (range 65535 0 opened).ckOff.toNat ≤ (range 65535 0 opened).params.bufBytes ∧ (range 65535 0 opened).ckLen = 0 := by
  decide

/-- The hypotheses of the clauses of HDR, UDPCK and PKT: the three refusals, and P = PMAX with the largest and the
smallest buffer. -/
def packetClauses : Prop :=
  (State.reset.err = none ∧ State.reset.phase = .uninit) ∧ (closed.err = none ∧ closed.phase = .sealed) ∧
  ({ smallest with payloadLen := 1 }.err = none ∧ { smallest with payloadLen := 1 }.phase = .opened ∧
    { smallest with payloadLen := 1 }.params.bufBytes - 28 < { smallest with payloadLen := 1 }.payloadLen.toNat) ∧
  (smallest.err = none ∧ smallest.phase = .opened ∧ smallest.payloadLen.toNat ≤ smallest.params.bufBytes - 28) ∧
  ({ golden with payloadLen := 65507 }.err = none ∧ { golden with payloadLen := 65507 }.phase = .opened ∧
    { golden with payloadLen := 65507 }.payloadLen.toNat ≤ { golden with payloadLen := 65507 }.params.bufBytes - 28)
theorem witness_HdrWritesTheHeaderBytes : packetClauses := by unfold packetClauses; decide
theorem witness_UdpckStoresTheUdpChecksum : packetClauses := by unfold packetClauses; decide
theorem witness_IpckStoresTheHeaderChecksumAndSeals : packetClauses := by unfold packetClauses; decide
theorem witness_IpckStoresTheHeaderChecksumAndSeals_corners :
    (opened.err = none ∧ opened.phase = .opened ∧ (loaded 0 [0x45] opened).buf.read 0 = 0x45) ∧
    ∀ a, opened.buf.read a = 0 := ⟨by decide, fun _ => rfl⟩
theorem witness_PktBuildsTheFinishedPacket : packetClauses := by unfold packetClauses; decide
theorem witness_LengthFieldsMatchThePayload : packetClauses ∧ (Instr.pkt = .hdr ∨ Instr.pkt = .pkt) :=
  ⟨witness_PktBuildsTheFinishedPacket, .inr rfl⟩
theorem witness_FinishedPacketVerifies :
    packetClauses ∧ golden.params.udpPseudo = false ∧ (withPseudo golden).params.udpPseudo = true ∧
    (withPseudo golden).payloadLen.toNat ≤ (withPseudo golden).params.bufBytes - 28 ∧ (withPseudo golden).phase = .opened ∧
    (withPseudo golden).err = none := ⟨witness_PktBuildsTheFinishedPacket, by decide⟩

/-- Two blocks that differ in the buffer behind the payload, in the buffer's size, in an old report register and in what
the host has received. -/
theorem witness_SameConfigurationBuildsTheSamePacket :
    ∃ s₁ s₂ : State, (s₁.err = none ∧ s₂.err = none ∧ s₁.phase = .opened ∧ s₂.phase = .opened ∧
      s₁.params.udpPseudo = s₂.params.udpPseudo ∧ s₁.srcAddr = s₂.srcAddr ∧ s₁.dstAddr = s₂.dstAddr ∧
      s₁.srcPort = s₂.srcPort ∧ s₁.dstPort = s₂.dstPort ∧ s₁.ttl = s₂.ttl ∧ s₁.ident = s₂.ident ∧
      s₁.payloadLen = s₂.payloadLen ∧ s₁.payloadLen.toNat ≤ s₁.params.bufBytes - 28 ∧
      s₂.payloadLen.toNat ≤ s₂.params.bufBytes - 28 ∧
      (∀ k, k < s₁.payloadLen.toNat → s₁.buf.read (28 + k) = s₂.buf.read (28 + k))) ∧ s₁.buf ≠ s₂.buf ∧
      s₁.params ≠ s₂.params :=
  ⟨{ golden with payloadLen := 8 }, other, by decide, by decide, by decide⟩

theorem witness_PassesDoNotDependOnTheirOrder : golden.buf.wf ∧ golden.buf.cells.length = 8 := by decide

theorem witness_AccumulatorNeverWraps : 65535 ≤ 65535 ∧ 6 * 0xFFFF ≤ 6 * 0xFFFF := by decide

theorem witness_SingleFoldIsWrong :
    0x1FFFF < 2 ^ 32 ∧ ¬ 0x1FFFF % 65536 + 0x1FFFF / 65536 < 0x10000 ∧ 0x1FFFE % 65536 + 0x1FFFE / 65536 < 0x10000 := by
  decide

theorem witness_FoldClosedFormAndRounds :
    0 < 1 ∧ 0x80057FFA < 2 ^ 32 ∧ (0xFFFF : Nat) ≤ 0xFFFF ∧ 0x10000 ≤ 0x1FFFF % 65536 + 0x1FFFF / 65536 ∧
    0x1FFFE < 0x1FFFF := by decide

theorem witness_ChecksumDependsOnlyOnItsRange :
    (∀ k, k < 3 → (Memory.cleared.load 7 [1, 2, 3]).read (7 + k) = (Memory.cleared.load 0 [1, 2, 3, 4]).read (0 + k)) ∧
    Memory.cleared.load 7 [1, 2, 3] ≠ Memory.cleared.load 0 [1, 2, 3, 4] := by decide

/-- 95_test_vectors.md V15, and the field as the last two bytes of the range. -/
theorem witness_StoredChecksumVerifiesToZero :
    (100 ≤ 102 ∧ 102 + 1 < 100 + 7 ∧ (102 - 100) % 2 = 0 ∧
      (Memory.cleared.load 100 [0x12, 0x34, 0x00, 0x00, 0x56, 0x78, 0x9A]).read 102 = 0 ∧
      (Memory.cleared.load 100 [0x12, 0x34, 0x00, 0x00, 0x56, 0x78, 0x9A]).read (102 + 1) = 0) ∧
    (20 ≤ 26 ∧ 26 + 1 < 20 + 8 ∧ (26 - 20) % 2 = 0 ∧ golden.buf.read 26 = 0 ∧ golden.buf.read (26 + 1) = 0) := by decide

theorem witness_PhasesFollowTheTransitionTable :
    (∃ t, golden.err = none ∧ exec .pkt golden = .next t ∧ t.phase = .sealed) ∧
    (∃ t, closed.err = none ∧ exec .ipck closed = .next t ∧ t.err = some .sealed) ∧
    (∃ t, { smallest with payloadLen := 1 }.err = none ∧ exec .hdr { smallest with payloadLen := 1 } = .next t ∧
      t.err = some .len) :=
  ⟨⟨_, by decide, rfl, by decide⟩, ⟨_, by decide, rfl, by decide⟩, ⟨_, by decide, rfl, by decide⟩⟩

theorem witness_SealedPacketDoesNotChange :
    (∃ t, (waiting [.bufWrite 28 1] closed).phase = .sealed ∧ step (waiting [.bufWrite 28 1] closed) = .next t ∧
      t.phase = .sealed) ∧
    (∃ t, (waiting [.regWrite 0 2] closed).phase = .sealed ∧ step (waiting [.regWrite 0 2] closed) = .next t ∧
      t.phase = .opened) := ⟨⟨_, by decide, rfl, by decide⟩, ⟨_, by decide, rfl, by decide⟩⟩

theorem witness_FinishedPacketShowsInStatusAndStays :
    regRead 1 closed = 0x00000002 ∧
    ∃ t, (waiting [.regWrite 11 1] closed).finished ∧ step (waiting [.regWrite 11 1] closed) = .next t ∧ t.phase = .sealed :=
  ⟨by decide, _, ⟨by decide, by decide⟩, rfl, by decide⟩

theorem witness_CommandsWriteOnlyTheirBytes :
    nextOf (exec .hdr golden) (fun t => t.buf.read 0 != golden.buf.read 0) = some true ∧
    nextOf (exec .clr golden) (fun t => t.buf.read 35 != golden.buf.read 35) = some true ∧
    nextOf (exec .ipck opened) (fun t => t.buf.read 11 != opened.buf.read 11) = some true ∧
    nextOf (exec .udpck golden) (fun t => t.buf.read 27 != golden.buf.read 27) = some true :=
  ⟨by decide +kernel, by decide +kernel, by decide +kernel, by decide +kernel⟩

theorem witness_ReportRegistersHaveTheirWriters :
    nextOf (step (waiting [.regWrite 0 1] opened)) (fun t => t.result != opened.result) = some true ∧
    nextOf (step (waiting [.regWrite 0 4] golden)) (fun t => t.udpCsum != golden.udpCsum) = some true ∧
    nextOf (step (waiting [.regWrite 0 5] opened)) (fun t => t.ipCsum != opened.ipCsum) = some true :=
  ⟨by decide +kernel, by decide +kernel, by decide +kernel⟩

theorem witness_OperandRegistersAreTheHosts :
    (∃ t, step (waiting [.regWrite 5 1] opened) = .next t ∧ 5 ≤ (5 : BitVec 14).toNat ∧ (5 : BitVec 14).toNat ≤ 13 ∧
      regRead 5 t ≠ regRead 5 (waiting [.regWrite 5 1] opened)) ∧
    (∃ t, step (waiting [.reset] golden) = .next t ∧ 5 ≤ (13 : BitVec 14).toNat ∧ (13 : BitVec 14).toNat ≤ 13 ∧
      regRead 13 t ≠ regRead 13 (waiting [.reset] golden)) := ⟨⟨_, rfl, by decide⟩, ⟨_, rfl, by decide⟩⟩

/-- The invariant holds of an open state with a payload, and a step leaves it. -/
theorem witness_EveryStepKeepsTheInvariant :
    ∃ t, (waiting [.regWrite 0 6] golden).Inv ∧ step (waiting [.regWrite 0 6] golden) = .next t ∧ t.phase = .sealed :=
  ⟨_, { canonical := by decide
        inBuffer := by decide
        untouched := fun h => absurd h (by decide)
        defined := fun _ => by decide
        headerVerifies := fun h => absurd h (by decide)
        reported := fun h => absurd h (by decide) }, rfl, by decide⟩

theorem witness_UnspecifiedBufferIsNeverObserved :
    (waiting [.bufRead 3, lineCmd .hdr, lineCmd .clr] State.reset).phase = .uninit := by decide

theorem witness_BusAccessesAreTheTransactions :
    0x1FFFF < 0x20000 ∧ 0xFFFF < 0x10000 ∧ (0x0001 % 4 ≠ 0) ∧ 0x10000 ≤ 0x10000 := by decide

end Sys2Proof.Tests
end

section
/-! SUPPORT. Proofs about the state of 10_state.md: the reset state, the layout of STATUS, the transition table of the
phases, and which transaction can change which register. -/

namespace Sys2Proof.Machine

variable {α : Type} {s t : State}

/-! ## The reset state -/

/-- Settles O1, row by row of the table. -/
theorem resetStateHasTheTabledValues : Obligations.ResetStateHasTheTabledValues where
  phase := rfl
  err := rfl
  status := rfl
  result := rfl
  udpCsum := rfl
  ipCsum := rfl
  ckOff := rfl
  ckLen := rfl
  srcAddr := rfl
  dstAddr := rfl
  srcPort := rfl
  dstPort := rfl
  ttl := rfl
  ident := rfl
  payloadLen := rfl
  buf := ⟨0, fun _ => rfl⟩
  cmd := rfl
  params := rfl
  pending := rfl
  returned := rfl

/-- Settles O48: no byte is listed after reset, and the phase is UNINIT. -/
theorem resetStateMeetsTheInvariant : Obligations.ResetStateMeetsTheInvariant where
  canonical := Memory.wf_reset
  inBuffer := fun _ hc => nomatch hc
  untouched := fun _ => rfl
  defined := fun h => absurd rfl h
  headerVerifies := fun h => nomatch h
  reported := fun h => nomatch h

/-! ## STATUS -/

/-- The fields of a word laid out as STATUS is, whatever the two codes are (10_state.md R35). -/
theorem statusLayout_fields (e : BitVec 4) (p : BitVec 2) :
    (((0 : BitVec 20) ++ e) ++ ((0 : BitVec 6) ++ p)).extractLsb' 0 2 = p ∧
    (((0 : BitVec 20) ++ e) ++ ((0 : BitVec 6) ++ p)).extractLsb' 2 6 = 0 ∧
    (((0 : BitVec 20) ++ e) ++ ((0 : BitVec 6) ++ p)).extractLsb' 8 4 = e ∧
    (((0 : BitVec 20) ++ e) ++ ((0 : BitVec 6) ++ p)).extractLsb' 12 20 = 0 ∧
    (((0 : BitVec 20) ++ e) ++ ((0 : BitVec 6) ++ p)).toNat = e.toNat * 256 + p.toNat := by
  revert e p
  decide

theorem regRead_status (s : State) : regRead 1 s = statusWord s := regRead_regNumber .status s

theorem statusNumber_eq (s : State) :
    statusNumber s = (errField s.err).toNat * 256 + (phaseCode s.phase).toNat := by
  refine congrArg₂ (· * 256 + ·) ?_ ?_
  · cases s.err with
    | none => rfl
    | some e => cases e <;> rfl
  · cases s.phase <;> rfl

/-- Settles O11: the layout holds for any two codes, and STATUS is no register a host can write. -/
theorem statusWordLayout : Obligations.StatusWordLayout := by
  refine ⟨fun s => ?_, rfl, fun s v he => ?_⟩
  · rw [regRead_status, statusNumber_eq]
    exact statusLayout_fields (errField s.err) (phaseCode s.phase)
  · exact regWrite_not_faulted 1 v he

/-! ## The transition table -/

/-- What a cell of the transition table says of a command that turned `s` into `t` (10_state.md R32): an error cell only
raises its error; a phase cell is reached without error, or an operand error leaves the phase. -/
def FollowsCell (s t : State) : Except ErrCode Phase → Prop
  | .error e => t = { s with err := some e }
  | .ok p => (t.err = none ∧ t.phase = p) ∨ ((t.err = some .len ∨ t.err = some .range) ∧ t.phase = s.phase)

theorem phaseTable_csum_of_ne_uninit {p : Phase} (hp : p ≠ .uninit) : phaseTable .csum p = .ok p := by
  cases p with
  | uninit => exact absurd rfl hp
  | opened => rfl
  | sealed => rfl

/-- The refusals that HDR, UDPCK and PKT share are those of their cells. -/
theorem RefusedOpen.followsCell {i : Instr} (he : s.err = none) (hi : i = .hdr ∨ i = .udpck ∨ i = .pkt)
    (h : RefusedOpen s t) : FollowsCell s t (phaseTable i s.phase) := by
  rcases h with ⟨hne, _⟩ | ⟨_, hp, rfl⟩ | ⟨_, hp, rfl⟩ | ⟨_, hp, _, rfl⟩
  · exact absurd he hne
  all_goals rcases hi with rfl | rfl | rfl <;> simp [phaseTable, FollowsCell, hp]

/-- On a block that is not faulted every command follows its cell. -/
theorem exec_followsCell {i : Instr} (he : s.err = none) (h : exec i s = .next t) :
    FollowsCell s t (phaseTable i s.phase) := by
  cases i with
  | nop => rw [execNop_next h]; exact .inl ⟨he, rfl⟩
  | srst => rw [execSrst_next h]; exact .inl ⟨rfl, rfl⟩
  | clr =>
    rcases execClr_next h with ⟨hne, _⟩ | ⟨_, rfl⟩
    · exact absurd he hne
    · exact .inl ⟨he, rfl⟩
  | csum =>
    rcases execCsum_next h with ⟨hne, _⟩ | ⟨_, hp, rfl⟩ | ⟨_, hp, _, rfl⟩ | ⟨_, hp, _, rfl⟩
    · exact absurd he hne
    · simp [phaseTable, FollowsCell, hp]
    all_goals simp [phaseTable_csum_of_ne_uninit hp, FollowsCell, he]
  | hdr =>
    rcases execHdr_next h with hr | ⟨_, hp, _, rfl⟩
    · exact hr.followsCell he (.inl rfl)
    · simp [phaseTable, FollowsCell, hp, he]
  | udpck =>
    rcases execUdpck_next h with hr | ⟨_, hp, _, rfl⟩
    · exact hr.followsCell he (.inr (.inl rfl))
    · simp [phaseTable, FollowsCell, hp, he]
  | ipck =>
    rcases execIpck_next h with ⟨hne, _⟩ | ⟨_, hp, rfl⟩ | ⟨_, hp, rfl⟩ | ⟨_, hp, rfl⟩
    · exact absurd he hne
    all_goals simp [phaseTable, FollowsCell, hp, he]
  | pkt =>
    rcases execPkt_next h with hr | ⟨_, hp, _, rfl⟩
    · exact hr.followsCell he (.inr (.inr rfl))
    · simp [phaseTable, FollowsCell, hp, he]

/-- Settles O42, command by command. -/
theorem phasesFollowTheTransitionTable : Obligations.PhasesFollowTheTransitionTable := by
  intro i s t he h
  have hcell := exec_followsCell he h
  cases hc : phaseTable i s.phase <;> rw [hc] at hcell <;> exact hcell

/-! ## The word of a command -/

theorem zeroField_append_opField (w : Word) : zeroField w ++ opField w = w :=
  BitVec.extractLsb'_append_extractLsb'_eq_extractLsb' rfl |>.trans (by simp)

theorem eq_opcode_of_decodeOp {op : BitVec 8} {i : Instr} (h : decodeOp op = some i) : op = opcode i := by
  unfold decodeOp at h
  split at h
  case h_9 => cases h
  all_goals
    cases h
    apply BitVec.eq_of_toNat_eq
    assumption

/-- Only its own word decodes to a command (30_encoding.md R92). -/
theorem eq_encode_of_decode {w : Word} {i : Instr} (h : decode w = .ok i) : w = encode i := by
  unfold decode at h
  split at h
  · cases h
  · next hz =>
    have hzero : zeroField w = 0 := not_not.1 hz
    cases hop : decodeOp (opField w) with
    | none => rw [hop] at h; cases h
    | some j =>
      rw [hop] at h
      cases h
      rw [← zeroField_append_opField w, hzero, eq_opcode_of_decodeOp hop, encode]

/-! ## Which transaction changes which register -/

/-- The nine operand registers, 5 to 13 (10_state.md R22 to R30). -/
def State.operands (s : State) : Half × Half × Word × Word × Half × Half × Byte × Half × Half :=
  (s.ckOff, s.ckLen, s.srcAddr, s.dstAddr, s.srcPort, s.dstPort, s.ttl, s.ident, s.payloadLen)

theorem readReg_eq_of_operands_eq {r : Reg} (hr : regWritable r = true) (h : t.operands = s.operands) :
    readReg t r = readReg s r := by
  simp only [State.operands, Prod.mk.injEq] at h
  cases r <;> simp_all [readReg, regWritable]

/-- The registers each command can change (20_memory.md R75): the report registers by their command, the operand registers
by SRST alone. -/
theorem exec_registers {i : Instr} (h : exec i s = .next t) :
    (t.result ≠ s.result → i = .csum ∨ i = .srst) ∧
    (t.udpCsum ≠ s.udpCsum → i = .udpck ∨ i = .pkt ∨ i = .srst) ∧
    (t.ipCsum ≠ s.ipCsum → i = .ipck ∨ i = .pkt ∨ i = .srst) ∧
    (t.operands ≠ s.operands → i = .srst) := by
  rcases exec_next_cases h with rfl | ⟨e, rfl⟩ | ⟨rfl, v, rfl⟩ | ⟨rfl, _, rfl⟩ | ⟨rfl, rfl⟩ | ⟨rfl, _, _, rfl⟩ |
    ⟨rfl, _, _, rfl⟩ | ⟨rfl, _, rfl⟩ | ⟨rfl, _, _, rfl⟩ <;> simp [State.operands]

/-- `f` looks at the registers only: not at ERR, the buffer, or the two sides of the host. -/
def SeesRegisters (f : State → α) : Prop :=
  ∀ (s : State) (e : Option ErrCode) (m : Memory) (ts : List Txn) (rs : List Response),
    f { s with err := e, buf := m, pending := ts, returned := rs } = f s

theorem seesRegisters_readReg {r : Reg} (hr : regWritable r = true) : SeesRegisters (readReg · r) :=
  fun _ _ _ _ _ => readReg_eq_of_operands_eq hr rfl

/-- A step that changes what the registers show is a Reset, a command, or a write that a writable register takes. -/
theorem step_changes_registers {f : State → α} (hf : SeesRegisters f) (h : step s = .next t) (hne : f t ≠ f s) :
    ∃ rest, s.pending = .reset :: rest ∨
      (∃ i, s.pending = .regWrite 0 (encode i) :: rest ∧ exec i { s with pending := rest } = .next t) ∨
      (∃ r v, s.pending = .regWrite (regNumber r) v :: rest ∧ regWritable r = true ∧
        t = writeReg { s with pending := rest } v r) := by
  rcases step_next h with ⟨_, rfl⟩ | ⟨x, rest, hp, hx⟩
  · exact absurd rfl hne
  refine ⟨rest, ?_⟩
  rcases transact_next hx with rfl | ⟨e, rfl⟩ | ⟨r, rfl⟩ | ⟨rfl, _⟩ | ⟨v, i, rfl, hd, hi⟩ | ⟨r, v, rfl, _, hw, _, ht⟩ |
    ⟨a, b, rfl, _, _, _, rfl⟩
  · exact absurd (hf s _ _ _ _) hne
  · exact absurd (hf s _ _ _ _) hne
  · exact absurd (hf s _ _ _ _) hne
  · exact .inl hp
  · exact .inr (.inl ⟨i, by rw [hp, eq_encode_of_decode hd], hi⟩)
  · exact .inr (.inr ⟨r, v, hp, hw, ht⟩)
  · exact absurd (hf s _ _ _ _) hne

/-- A step that changes what no register write changes, a report register, is a Reset or a command that writes it. -/
theorem step_changes_report {f : State → α} {Writer : Instr → Prop} (hf : SeesRegisters f)
    (hw : ∀ s v r, f (writeReg s v r) = f s)
    (hx : ∀ {i : Instr} {s t : State}, exec i s = .next t → f t ≠ f s → Writer i)
    (h : step s = .next t) (hne : f t ≠ f s) :
    ∃ rest, s.pending = .reset :: rest ∨ ∃ i, Writer i ∧ s.pending = .regWrite 0 (encode i) :: rest := by
  obtain ⟨rest, hp | ⟨i, hp, hi⟩ | ⟨r, v, _, _, rfl⟩⟩ := step_changes_registers hf h hne
  · exact ⟨rest, .inl hp⟩
  · have hkept : f { s with pending := rest } = f s := hf s _ _ _ _
    exact ⟨rest, .inr ⟨i, hx hi (hkept ▸ hne), hp⟩⟩
  · exact absurd ((hw _ v r).trans (hf s _ _ _ _)) hne

/-- Settles O46: the step is a Reset or a command, and the command is one that writes the register. -/
theorem reportRegistersHaveTheirWriters : Obligations.ReportRegistersHaveTheirWriters := by
  intro s t h
  refine ⟨fun hne => ?_, fun hne => ?_, fun hne => ?_⟩
  · obtain ⟨rest, hp⟩ := step_changes_report (fun _ _ _ _ _ => rfl) writeReg_result
      (fun hx => let ⟨hresult, _⟩ := exec_registers hx; hresult) h hne
    exact ⟨rest, by simpa [encode, opcode, or_and_right, exists_or] using hp⟩
  · obtain ⟨rest, hp⟩ := step_changes_report (fun _ _ _ _ _ => rfl) writeReg_udpCsum
      (fun hx => let ⟨_, hudp, _⟩ := exec_registers hx; hudp) h hne
    exact ⟨rest, by simpa [encode, opcode, or_and_right, exists_or] using hp⟩
  · obtain ⟨rest, hp⟩ := step_changes_report (fun _ _ _ _ _ => rfl) writeReg_ipCsum
      (fun hx => let ⟨_, _, hip, _⟩ := exec_registers hx; hip) h hne
    exact ⟨rest, by simpa [encode, opcode, or_and_right, exists_or] using hp⟩

/-- The numbers 5 to 13 are those of the writable registers. -/
theorem exists_writable_regNumber {n : BitVec 14} (h5 : 5 ≤ n.toNat) (h13 : n.toNat ≤ 13) :
    ∃ r, n = regNumber r ∧ regWritable r = true := by
  obtain ⟨r, rfl⟩ := exists_regNumber (n := n) (by omega)
  exact ⟨r, rfl, by cases r <;> simp_all [regNumber, regWritable]⟩

/-- Settles O47: no command but SRST changes an operand register, and a write to another register leaves it. -/
theorem operandRegistersAreTheHosts : Obligations.OperandRegistersAreTheHosts := by
  intro s t n h h5 h13 hne
  obtain ⟨q, rfl, hq⟩ := exists_writable_regNumber h5 h13
  rw [regRead_regNumber, regRead_regNumber] at hne
  obtain ⟨rest, hp | ⟨i, hp, hx⟩ | ⟨r, v, hp, _, rfl⟩⟩ := step_changes_registers (seesRegisters_readReg hq) h hne
  · exact ⟨rest, 0, .inl hp⟩
  · obtain ⟨-, -, -, hoperands⟩ := exec_registers hx
    have hi : i = .srst := hoperands fun heq => hne (readReg_eq_of_operands_eq hq heq)
    subst hi
    exact ⟨rest, 0, .inr (.inr hp)⟩
  · have hqr : q = r := by
      by_contra hqr
      exact hne (readReg_writeReg_other { s with pending := rest } v r q hqr |>.trans
        (readReg_eq_of_operands_eq hq rfl))
    subst hqr
    exact ⟨rest, v, .inr (.inl hp)⟩

end Sys2Proof.Machine
end

section
/-! SUPPORT. Proofs about the host's side of the block (20_memory.md): each transaction line by line, the bytes a command
can change, and the bus accesses that are transactions. -/

namespace Sys2Proof.Machine

variable {s t : State} {n : BitVec 14} {v : Word} {r : Reg} {a : BitVec 16} {b : Byte} {rest : List Txn} {p : Params}
  {off : Nat} {acc : Access}

/-! ## Steps -/

/-- Settles O8: with nothing pending there is no transaction to accept. -/
theorem idleBlockHoldsItsState : Obligations.IdleBlockHoldsItsState := by
  intro s h
  simp [step, h]

theorem execute_of_decode {i : Instr} (hd : decode v = .ok i) : execute v s = exec i s := by
  rw [execute, hd]

/-- A write to CMD is Execute. -/
theorem regWrite_cmd (he : s.err = none) : regWrite 0 v s = execute v s := regWrite_not_faulted 0 v he

/-- Settles O6: the write to CMD is the oldest transaction, and the host's placed word is one. -/
theorem stepRunsTheDecodedCommand : Obligations.StepRunsTheDecodedCommand := by
  have hwrite : ∀ (s : State) (v : Word) (rest : List Txn) (i : Instr), s.err = none →
      s.pending = .regWrite 0 v :: rest → decode v = .ok i → step s = exec i { s with pending := rest } := by
    intro s v rest i he hp hd
    calc step s = regWrite 0 v { s with pending := rest } := step_cons hp
      _ = execute v { s with pending := rest } := regWrite_cmd he
      _ = exec i { s with pending := rest } := execute_of_decode hd
  refine ⟨hwrite, fun s v i he hd => hwrite _ v s.pending i he ?_ hd⟩
  rw [withFetchWord_pending, commandWrite, Nat.mod_eq_of_lt v.isLt, BitVec.ofNat_toNat, BitVec.setWidth_eq]

/-! ## RegRead -/

/-- What a register read returns does not depend on what is still to come. -/
theorem regRead_pending (n : BitVec 14) (s : State) (rest : List Txn) :
    regRead n { s with pending := rest } = regRead n s := by
  unfold regRead
  cases regOfNumber n with
  | none => rfl
  | some r => cases r <;> rfl

theorem regRead_reserved (hn : 14 ≤ n.toNat) : regRead n s = 0 := by
  rw [regRead, regOfNumber_eq_none hn]

theorem step_regRead (hp : s.pending = .regRead n :: rest) :
    step s = .next { s with pending := rest, returned := .word (regRead n s) :: s.returned } := by
  rw [step_cons hp, transact, respond, regRead_pending]

theorem regRead_status_toNat (s : State) : (regRead 1 s).toNat = statusNumber s := by
  obtain ⟨hlayout, -, -⟩ := statusWordLayout
  obtain ⟨-, -, -, -, hnumber⟩ := hlayout s
  exact hnumber

/-- A narrow register reads as its own value, zero-extended. -/
theorem toNat_regRead_of_readReg {w : Nat} {x : BitVec w} (hw : w ≤ 32) (hr : readReg s r = x.zeroExtend 32)
    (hn : n = regNumber r) : (regRead n s).toNat = x.toNat := by
  rw [hn, regRead_regNumber, hr, BitVec.toNat_setWidth_of_le hw]

/-- Settles O12, register by register. -/
theorem regReadReturnsTheRegister : Obligations.RegReadReturnsTheRegister := by
  intro s n rest hp
  exact ⟨regRead n s, step_regRead hp,
    fun hn => hn ▸ regRead_regNumber .cmd s,
    fun hn => hn ▸ regRead_status_toNat s,
    toNat_regRead_of_readReg (r := .result) (by decide) rfl,
    toNat_regRead_of_readReg (r := .udpCsum) (by decide) rfl,
    toNat_regRead_of_readReg (r := .ipCsum) (by decide) rfl,
    toNat_regRead_of_readReg (r := .ckOff) (by decide) rfl,
    toNat_regRead_of_readReg (r := .ckLen) (by decide) rfl,
    fun hn => hn ▸ regRead_regNumber .srcAddr s,
    fun hn => hn ▸ regRead_regNumber .dstAddr s,
    toNat_regRead_of_readReg (r := .srcPort) (by decide) rfl,
    toNat_regRead_of_readReg (r := .dstPort) (by decide) rfl,
    toNat_regRead_of_readReg (r := .ttl) (by decide) rfl,
    toNat_regRead_of_readReg (r := .ident) (by decide) rfl,
    toNat_regRead_of_readReg (r := .payloadLen) (by decide) rfl,
    regRead_reserved⟩

/-! ## RegWrite -/

theorem regWrite_faulted_srst (he : s.err ≠ none) : regWrite 0 0x00000007 s = exec .srst s := by
  simp [regWrite, faulted_eq_true.2 he]

theorem regWrite_faulted_ignored (he : s.err ≠ none) (hnv : ¬ (n = 0 ∧ v = 0x00000007)) : regWrite n v s = .next s := by
  rw [regWrite, if_pos (faulted_eq_true.2 he), if_neg hnv]

theorem regWrite_regNumber (he : s.err = none) : regWrite (regNumber r) v s = regStore r v s := by
  rw [regWrite_not_faulted _ v he, regOfNumber_regNumber]

theorem regStore_access (hc : r ≠ .cmd) (hr : regWritable r = false) :
    regStore r v s = .next { s with err := some .access } := by
  simp [regStore, hc, hr, raiseError_eq]

theorem ne_cmd_of_regWritable (hr : regWritable r = true) : r ≠ .cmd := by
  rintro rfl
  cases hr

/-- A writable register refuses a value that does not fit. -/
theorem regWrite_width (he : s.err = none) (hr : regWritable r = true) (hv : 2 ^ regWidth r ≤ v.toNat) :
    regWrite (regNumber r) v s = .next { s with err := some .width } := by
  rw [regWrite_regNumber he, regStore, if_neg (ne_cmd_of_regWritable hr), if_pos hr, if_pos hv, raiseError_eq]

/-- A writable register takes a value that fits. -/
theorem regWrite_fits (he : s.err = none) (hr : regWritable r = true) (hv : v.toNat < 2 ^ regWidth r) :
    regWrite (regNumber r) v s = .next (writeReg s v r) := by
  rw [regWrite_regNumber he, regStore, if_neg (ne_cmd_of_regWritable hr), if_pos hr, if_neg (Nat.not_le.2 hv)]

/-- The numbers 1 to 4 are those of the registers a host may only read. -/
theorem exists_readOnly_regNumber (h1 : 1 ≤ n.toNat) (h4 : n.toNat ≤ 4) :
    ∃ r, n = regNumber r ∧ r ≠ .cmd ∧ regWritable r = false := by
  obtain ⟨r, rfl⟩ := exists_regNumber (n := n) (by omega)
  exact ⟨r, rfl, by cases r <;> simp_all [regNumber, regWritable]⟩

/-- A register that is read-only or reserved refuses every value. -/
theorem regWrite_access (he : s.err = none) (hn : 1 ≤ n.toNat ∧ n.toNat ≤ 4 ∨ 14 ≤ n.toNat) :
    regWrite n v s = .next { s with err := some .access } := by
  rcases hn with ⟨h1, h4⟩ | h14
  · obtain ⟨r, rfl, hc, hr⟩ := exists_readOnly_regNumber h1 h4
    rw [regWrite_regNumber he, regStore_access hc hr]
  · rw [regWrite_not_faulted _ v he, regOfNumber_eq_none h14, raiseError_eq]

theorem widthOfNumber_regNumber (hr : regWritable r = true) : widthOfNumber (regNumber r).toNat = regWidth r := by
  cases r <;> revert hr <;> decide

/-- A write to one register leaves what every other number reads as. -/
theorem regRead_writeReg_other {m : BitVec 14} (hm : m ≠ regNumber r) :
    regRead m (writeReg s v r) = regRead m s := by
  by_cases h14 : 14 ≤ m.toNat
  · rw [regRead_reserved h14, regRead_reserved h14]
  · obtain ⟨q, rfl⟩ := exists_regNumber (n := m) (by omega)
    rw [regRead_regNumber, regRead_regNumber]
    exact readReg_writeReg_other s v r q fun hqr => hm (congrArg regNumber hqr)

/-- Settles O13, line by line; a value that fits goes through `writeReg`. -/
theorem regWriteStoresOrRefuses : Obligations.RegWriteStoresOrRefuses := by
  intro s n v rest hp
  have hstep : step s = regWrite n v { s with pending := rest } := step_cons hp
  rw [hstep]
  refine ⟨fun he hn hv => ?_, fun he hnv => regWrite_faulted_ignored he hnv, fun he hn => ?_,
    fun he hn => regWrite_access he hn, fun he h5 h13 hv => ?_, fun he h5 h13 hv => ?_⟩
  · subst hn hv
    exact regWrite_faulted_srst he
  · subst hn
    exact regWrite_cmd he
  · obtain ⟨r, rfl, hr⟩ := exists_writable_regNumber h5 h13
    rw [widthOfNumber_regNumber hr] at hv
    exact regWrite_width he hr hv
  · obtain ⟨r, rfl, hr⟩ := exists_writable_regNumber h5 h13
    rw [widthOfNumber_regNumber hr] at hv
    refine ⟨writeReg { s with pending := rest } v r, regWrite_fits he hr hv, ?_, fun m hm => ?_, ?_⟩
    · rw [regRead_regNumber, readReg_writeReg_same _ v r hr hv]
    · rw [regRead_writeReg_other hm, regRead_pending]
    · simp [he]

/-! ## BufRead and BufWrite -/

theorem bufRead_gated (h : s.phase = .uninit ∨ s.params.bufBytes ≤ a.toNat) : bufRead a s = 0x00 := if_pos h

theorem bufRead_byte (hp : s.phase ≠ .uninit) (ha : a.toNat < s.params.bufBytes) :
    bufRead a s = s.buf.read a.toNat :=
  if_neg (not_or.2 ⟨hp, Nat.not_le.2 ha⟩)

theorem step_bufRead (hp : s.pending = .bufRead a :: rest) :
    step s = .next { s with pending := rest, returned := .byte (bufRead a s) :: s.returned } := step_cons hp

/-- Settles O14: the gate of the read, closed and open. -/
theorem bufReadReturnsTheByteOrZero : Obligations.BufReadReturnsTheByteOrZero := by
  intro s a rest hp
  rw [step_bufRead hp]
  exact ⟨fun h => by rw [bufRead_gated h], fun hphase ha => by rw [bufRead_byte hphase ha]⟩

theorem bufWrite_faulted (he : s.err ≠ none) : bufWrite a b s = .next s := unlessFaulted_faulted he

theorem bufWrite_uninit (he : s.err = none) (hp : s.phase = .uninit) :
    bufWrite a b s = .next { s with err := some .uninit } := by
  rw [bufWrite, unlessFaulted_ok he, needOpen_uninit hp]

theorem bufWrite_sealed (he : s.err = none) (hp : s.phase = .sealed) :
    bufWrite a b s = .next { s with err := some .sealed } := by
  rw [bufWrite, unlessFaulted_ok he, needOpen_sealed hp]

theorem bufWrite_range (he : s.err = none) (hp : s.phase = .opened) (ha : s.params.bufBytes ≤ a.toNat) :
    bufWrite a b s = .next { s with err := some .range } := by
  rw [bufWrite, unlessFaulted_ok he, needOpen_opened hp, if_pos ha, raiseError_eq]

theorem bufWrite_stored (he : s.err = none) (hp : s.phase = .opened) (ha : a.toNat < s.params.bufBytes) :
    bufWrite a b s = .next { s with buf := s.buf.write a.toNat b } := by
  rw [bufWrite, unlessFaulted_ok he, needOpen_opened hp, if_neg (Nat.not_le.2 ha)]

/-- Settles O15, line by line. -/
theorem bufWriteStoresOneByteOrRefuses : Obligations.BufWriteStoresOneByteOrRefuses := by
  intro s a b rest hp
  have hstep : step s = bufWrite a b { s with pending := rest } := step_cons hp
  rw [hstep]
  refine ⟨fun he => bufWrite_faulted he, fun he hphase => bufWrite_uninit he hphase,
    fun he hphase => bufWrite_sealed he hphase, fun he hphase ha => bufWrite_range he hphase ha,
    fun he hphase ha => ⟨s.buf.write a.toNat b, bufWrite_stored he hphase ha, ?_, fun x hx => ?_⟩⟩
  · rw [Memory.read_write, if_pos rfl]
  · rw [Memory.read_write, if_neg hx]

/-! ## The bytes a command can change -/

/-- The UDP pass leaves every byte outside its field. -/
theorem udpPass_read_other (p : Nat) (s : State) {x : Nat} (h26 : x ≠ 26) (h27 : x ≠ 27) :
    (udpPass p s).buf.read x = s.buf.read x := by
  rw [udpPass_read, if_neg h26, if_neg h27]

/-- The IPv4 pass leaves every byte outside its field. -/
theorem ipPass_read_other (s : State) {x : Nat} (h10 : x ≠ 10) (h11 : x ≠ 11) :
    (ipPass s).buf.read x = s.buf.read x := by
  rw [ipPass_read, if_neg h10, if_neg h11]

/-- The three steps of PKT leave the payload. -/
theorem pktSteps_read_above (p : Nat) (s : State) {x : Nat} (h : 28 ≤ x) :
    (ipPass (udpPass p (serialiseHeaders p s))).buf.read x = s.buf.read x := by
  rw [ipPass_read_other _ (by omega) (by omega), udpPass_read_other _ _ (by omega) (by omega),
    serialiseHeaders_read_above p s h]

/-- Settles O45: for each thing a command can do, the frame of the buffer. -/
theorem commandsWriteOnlyTheirBytes : Obligations.CommandsWriteOnlyTheirBytes := by
  intro i s t a h hne
  rcases exec_next_cases h with rfl | ⟨e, rfl⟩ | ⟨rfl, c, rfl⟩ | ⟨rfl, _, rfl⟩ | ⟨rfl, rfl⟩ | ⟨rfl, _, _, rfl⟩ |
    ⟨rfl, _, _, rfl⟩ | ⟨rfl, _, rfl⟩ | ⟨rfl, _, _, rfl⟩
  · exact absurd rfl hne
  · exact absurd rfl hne
  · exact absurd rfl hne
  · exact .inl rfl
  · simp
  · have ha : a < 28 := by
      by_contra ha
      exact hne (serialiseHeaders_read_above _ s (by omega))
    simp [ha]
  · have ha : a = 26 ∨ a = 27 := by
      by_contra ha
      exact hne (udpPass_read_other _ s (by omega) (by omega))
    simp [ha]
  · have ha : a = 10 ∨ a = 11 := by
      by_contra ha
      rw [sealPacket_buf] at hne
      exact hne (ipPass_read_other s (by omega) (by omega))
    simp [ha]
  · have ha : a < 28 := by
      by_contra ha
      rw [sealPacket_buf] at hne
      exact hne (pktSteps_read_above _ s (by omega))
    simp [ha]

/-! ## The bus -/

/-- The register region of the address map (20_memory.md R71). -/
theorem placeOf_registerRegion (h : off < 0x10000) :
    placeOf p (p.base + off) = if off % 4 = 0 then .register (BitVec.ofNat 14 (off / 4)) else .misaligned := by
  rw [placeOf, if_neg (by omega), Nat.add_sub_cancel_left, if_pos h]

/-- The buffer window of the address map (20_memory.md R71). -/
theorem placeOf_bufferWindow (h : 0x10000 ≤ off) (h2 : off < 0x20000) :
    placeOf p (p.base + off) = .bufferByte (BitVec.ofNat 16 (off - 0x10000)) := by
  rw [placeOf, if_neg (by omega), Nat.add_sub_cancel_left, if_neg (by omega), if_pos h2]

theorem placeOf_register (p : Params) (n : BitVec 14) : placeOf p (p.base + 4 * n.toNat) = .register n := by
  have hn := n.isLt
  rw [placeOf_registerRegion (by omega), if_pos (by omega), Nat.mul_div_cancel_left _ (by decide), BitVec.ofNat_toNat,
    BitVec.setWidth_eq]

theorem placeOf_bufferByte (p : Params) (a : BitVec 16) : placeOf p (p.base + 0x10000 + a.toNat) = .bufferByte a := by
  have ha := a.isLt
  rw [Nat.add_assoc, placeOf_bufferWindow (by omega) (by omega), Nat.add_sub_cancel_left, BitVec.ofNat_toNat,
    BitVec.setWidth_eq]

theorem placeOf_misaligned (h : off < 0x10000) (h4 : off % 4 ≠ 0) : placeOf p (p.base + off) = .misaligned := by
  rw [placeOf_registerRegion h, if_neg h4]

theorem issue_ok {x : Txn} (h : decodeAccess s.params acc = .ok x) :
    issue acc s = .next { s with pending := s.pending ++ [x] } := by
  rw [issue, h]

theorem issue_error {e : Refusal} (h : decodeAccess s.params acc = .error e) : issue acc s = .refused e := by
  rw [issue, h]

/-- An 8-bit access to the register region is no transaction. -/
theorem byteAccess_registerRegion (k : BitVec 16 → Txn) (h : off < 0x10000) :
    byteAccess (placeOf p (p.base + off)) k = .error .unsupportedAccess := by
  rw [placeOf_registerRegion h]
  split <;> rfl

/-- A 16-bit access to the block is no transaction. -/
theorem halfAccess_block (h : off < 0x20000) : halfAccess (placeOf p (p.base + off)) = .error .unsupportedAccess := by
  by_cases hr : off < 0x10000
  · rw [placeOf_registerRegion hr]
    split <;> rfl
  · rw [placeOf_bufferWindow (by omega) h, halfAccess]

/-- A 32-bit access that is misaligned or in the buffer window is no transaction. -/
theorem wordAccess_refused (k : BitVec 14 → Txn) (h : off < 0x20000) (hoff : off % 4 ≠ 0 ∨ 0x10000 ≤ off) :
    wordAccess (placeOf p (p.base + off)) k = .error .unsupportedAccess := by
  by_cases hr : off < 0x10000
  · rw [placeOf_misaligned hr (by omega), wordAccess]
  · rw [placeOf_bufferWindow (by omega) h, wordAccess]

/-- Settles O51: the address map, then the widths. -/
theorem busAccessesAreTheTransactions : Obligations.BusAccessesAreTheTransactions := by
  intro s n a v b h off
  refine ⟨issue_ok rfl, issue_ok ?_, issue_ok ?_, issue_ok ?_, issue_ok ?_, fun ho => ⟨?_, ?_⟩, fun ho => ⟨?_, ?_⟩,
    fun ho hm => ⟨?_, ?_⟩⟩
  · rw [decodeAccess, placeOf_register, wordAccess]
  · rw [decodeAccess, placeOf_register, wordAccess]
  · rw [decodeAccess, placeOf_bufferByte, byteAccess]
  · rw [decodeAccess, placeOf_bufferByte, byteAccess]
  · exact issue_error (halfAccess_block ho)
  · exact issue_error (halfAccess_block ho)
  · exact issue_error (byteAccess_registerRegion _ ho)
  · exact issue_error (byteAccess_registerRegion _ ho)
  · exact issue_error (wordAccess_refused _ ho hm)
  · exact issue_error (wordAccess_refused _ ho hm)

end Sys2Proof.Machine
end

section
/-! SUPPORT. Proofs about the command words (30_encoding.md): decoding and encoding agree, and which words are commands. -/

namespace Sys2Proof.Machine

variable {w : Word}

/-! ## The words of the commands -/

/-- The family EncodedWord holds of every command. -/
theorem encodedWord (i : Instr) : Laws.EncodedWord.Statement i := by
  cases i with
  | nop => exact Laws.EncodedWord.nop
  | csum => exact Laws.EncodedWord.csum
  | clr => exact Laws.EncodedWord.clr
  | hdr => exact Laws.EncodedWord.hdr
  | udpck => exact Laws.EncodedWord.udpck
  | ipck => exact Laws.EncodedWord.ipck
  | pkt => exact Laws.EncodedWord.pkt
  | srst => exact Laws.EncodedWord.srst

@[simp] theorem decodeOp_opcode (i : Instr) : decodeOp (opcode i) = some i := by cases i <;> rfl

@[simp] theorem decode_encode (i : Instr) : decode (encode i) = .ok i := by
  obtain ⟨-, hzero, hop, -⟩ := encodedWord i
  rw [decode, if_neg (not_not.2 hzero), hop, decodeOp_opcode]

/-- Every value below 8 is a command's word: the opcode map leaves no gap (30_encoding.md R91). -/
theorem exists_encode_of_lt (h : w.toNat < 8) : ∃ i, w = encode i := by
  have hw : w = BitVec.ofNat 32 w.toNat := by simp
  generalize w.toNat = k at *
  subst hw
  interval_cases k
  exacts [⟨.nop, rfl⟩, ⟨.csum, rfl⟩, ⟨.clr, rfl⟩, ⟨.hdr, rfl⟩, ⟨.udpck, rfl⟩, ⟨.ipck, rfl⟩, ⟨.pkt, rfl⟩, ⟨.srst, rfl⟩]

@[simp] theorem encode_toNat (i : Instr) : (encode i).toNat = (opcode i).toNat :=
  (BitVec.toNat_append 0 (opcode i)).trans (by simp)

theorem opcode_toNat_lt (i : Instr) : (opcode i).toNat < 8 := by
  obtain ⟨-, -, -, hlt⟩ := encodedWord i
  exact hlt

/-- Settles O5: the words below 8 are the words of the commands, and each decodes to its own command. -/
theorem decodeAndEncodeAgree : Obligations.DecodeAndEncodeAgree := by
  refine ⟨fun i _ => decode_encode i, fun w i => eq_encode_of_decode, fun w => ⟨?_, ?_⟩⟩
  · rintro ⟨i, hd⟩
    rw [eq_encode_of_decode hd, encode_toNat]
    exact opcode_toNat_lt i
  · intro h
    obtain ⟨i, rfl⟩ := exists_encode_of_lt h
    exact ⟨i, decode_encode i⟩

/-! ## The words that are no command -/

theorem decodeOp_reserved {op : BitVec 8} (h : 8 ≤ op.toNat) : decodeOp op = none := by
  cases hd : decodeOp op with
  | none => rfl
  | some i =>
    rw [eq_opcode_of_decodeOp hd] at h
    exact absurd (opcode_toNat_lt i) (Nat.not_lt.2 h)

theorem decode_reservedOpcode (hz : zeroField w = 0) (h : 8 ≤ (opField w).toNat) :
    decode w = .error .reservedOpcode := by
  rw [decode, if_neg (not_not.2 hz), decodeOp_reserved h]

theorem decode_upperBitsSet (h : zeroField w ≠ 0) : decode w = .error .upperBitsSet := if_pos h

/-- Settles O4: eight words of commands, two reserved opcodes, four words with an upper bit set. -/
theorem opcodeMapWordsDecode : Obligations.OpcodeMapWordsDecode :=
  ⟨decode_encode .nop, decode_encode .csum, decode_encode .clr, decode_encode .hdr, decode_encode .udpck,
    decode_encode .ipck, decode_encode .pkt, decode_encode .srst,
    decode_reservedOpcode (by decide) (by decide), decode_reservedOpcode (by decide) (by decide),
    decode_upperBitsSet (by decide), decode_upperBitsSet (by decide), decode_upperBitsSet (by decide),
    decode_upperBitsSet (by decide)⟩

end Sys2Proof.Machine
end

section
/-! SUPPORT. Proofs about the checksum engine (40_checksum_engine.md): what Fold computes, the word sum and its bounds,
the other formulations of the sum, and the command CSUM. -/

namespace Sys2Proof.Machine

variable {m n : Memory} {s : State} {a b len e fuel x : Nat}

/-! ## Fold -/

/-- The closed form of the loop (40_checksum_engine.md R134): a round keeps the sum modulo 65535 and above 0. -/
theorem foldLoop_of_pos (hx : 0 < x) (hfuel : x ≤ fuel) : foldLoop fuel x = (x - 1) % 65535 + 1 := by
  induction fuel generalizing x with
  | zero => omega
  | succ fuel ih =>
    by_cases hlt : x < 65536
    · rw [foldLoop_of_lt hlt]
      omega
    · rw [foldLoop_step (by omega), ih (by omega) (by omega)]
      omega

@[simp] theorem fold_zero : fold 0 = 0 := rfl

theorem fold_of_pos (hx : 0 < x) : fold x = (x - 1) % 65535 + 1 := foldLoop_of_pos hx (Nat.le_refl x)

theorem fold_of_lt (hx : x < 65536) : fold x = x := foldLoop_of_lt hx

theorem fold_lt (x : Nat) : fold x < 65536 := by
  rcases Nat.eq_zero_or_pos x with rfl | hx
  · decide
  · rw [fold_of_pos hx]
    omega

/-- Numbers that are equal modulo 65535 and both 0 or both not fold to the same value. -/
theorem fold_congr {y : Nat} (hzero : x = 0 ↔ y = 0) (hmod : x % 65535 = y % 65535) : fold x = fold y := by
  rcases Nat.eq_zero_or_pos x with hx | hx
  · rw [hx, hzero.1 hx]
  · rw [fold_of_pos hx, fold_of_pos (by omega)]
    omega

/-- A round of the loop does not change what a sum folds to. -/
theorem fold_round (x : Nat) : fold (x % 65536 + x / 65536) = fold x := fold_congr (by omega) (by omega)

theorem fold_eq_zero_iff : fold x = 0 ↔ x = 0 := by
  rcases Nat.eq_zero_or_pos x with rfl | hx
  · simp
  · rw [fold_of_pos hx]
    omega

theorem fold_mod (x : Nat) : fold x % 65535 = x % 65535 := by
  rcases Nat.eq_zero_or_pos x with rfl | hx
  · rfl
  · rw [fold_of_pos hx]
    omega

/-- Folding on the way does not change the end (40_checksum_engine.md R135). -/
theorem fold_fold_add (x y : Nat) : fold (fold x + y) = fold (x + y) := by
  have hzero := fold_eq_zero_iff (x := x)
  have hmod := fold_mod x
  exact fold_congr (by omega) (by omega)

theorem fold_eq_ffff_iff : fold x = 65535 ↔ x ≠ 0 ∧ x % 65535 = 0 := by
  have hzero := fold_eq_zero_iff (x := x)
  have hmod := fold_mod x
  have hlt := fold_lt x
  omega

/-- Settles O34: a round changes nothing, and what needs no round is left as it is. -/
theorem foldRunsUntilStable : Obligations.FoldRunsUntilStable := by
  intro x
  refine ⟨fold_lt x, ?_⟩
  split
  · exact fold_of_lt (by omega)
  · exact (fold_round x).symm

/-! ## The rounds of the loop -/

theorem foldRounds_of_lt (hx : x < 65536) : foldRounds fuel x = 0 := by
  cases fuel <;> simp [foldRounds, Nat.div_eq_of_lt hx]

theorem foldRounds_step (hx : 65536 ≤ x) :
    foldRounds (fuel + 1) x = foldRounds fuel (x % 65536 + x / 65536) + 1 := by
  rw [foldRounds, if_neg (by omega)]

/-- The rounds of a 32-bit sum (40_checksum_engine.md R134): none, one, or two when the first addition carries. -/
theorem foldRounds_of_lt_two_pow (hx : x < 2 ^ 32) :
    foldRounds (fuel + 2) x = if x < 65536 then 0 else if x % 65536 + x / 65536 < 65536 then 1 else 2 := by
  split
  · next hlt => exact foldRounds_of_lt hlt
  · rw [foldRounds_step (by omega)]
    split
    · next hr => rw [foldRounds_of_lt hr]
    · rw [foldRounds_step (by omega), foldRounds_of_lt (by omega)]

theorem foldRounds_self (hx : x < 2 ^ 32) :
    foldRounds x x = if x < 65536 then 0 else if x % 65536 + x / 65536 < 65536 then 1 else 2 := by
  by_cases hlt : x < 65536
  · rw [foldRounds_of_lt hlt, if_pos hlt]
  · obtain ⟨fuel, hfuel⟩ : ∃ fuel, x = fuel + 2 := ⟨x - 2, by omega⟩
    rw [← foldRounds_of_lt_two_pow (fuel := fuel) hx, ← hfuel]

/-! ## The checksum of a sum -/

theorem toNat_checksum (m : Memory) (a len e : Nat) :
    (checksum m a len e).toNat = 65535 - fold (wordSum m a len + e) := by
  rw [checksum, BitVec.toNat_not, BitVec.toNat_ofNat, Nat.mod_eq_of_lt (fold_lt _)]

theorem checksum_eq_ffff_iff : checksum m a len e = 0xFFFF ↔ wordSum m a len + e = 0 := by
  have hlt := fold_lt (wordSum m a len + e)
  rw [← BitVec.toNat_inj, toNat_checksum, ← fold_eq_zero_iff, show (0xFFFF : Half).toNat = 65535 from rfl]
  omega

theorem checksum_eq_zero_iff :
    checksum m a len e = 0x0000 ↔ wordSum m a len + e ≠ 0 ∧ (wordSum m a len + e) % 65535 = 0 := by
  have hlt := fold_lt (wordSum m a len + e)
  rw [← BitVec.toNat_inj, toNat_checksum, ← fold_eq_ffff_iff, show (0x0000 : Half).toNat = 0 from rfl]
  omega

/-- Settles O36: the closed form, the rounds, and the two extreme checksums. -/
theorem foldClosedFormAndRounds : Obligations.FoldClosedFormAndRounds := by
  refine ⟨fold_zero, fun x hx => fold_of_pos hx, fun x hx => ?_, ⟨by decide, fun x hx => by omega⟩,
    fun m a len e => ⟨checksum_eq_ffff_iff, checksum_eq_zero_iff⟩⟩
  rw [foldRounds_self hx]
  split
  · omega
  · split <;> omega

/-! ## The word sum -/

@[simp] theorem wordSum_zero (m : Memory) (a : Nat) : wordSum m a 0 = 0 := rfl

theorem wordSum_one (m : Memory) (a : Nat) : wordSum m a 1 = (m.read a).toNat * 256 := by
  simp [wordSum, pairSum]

/-- The sum of word pairs, taken apart at its first word. -/
theorem pairSum_succ_first (m : Memory) (a k : Nat) :
    pairSum m a (k + 1) = m.memRead a 2 + pairSum m (a + 2) k := by
  induction k with
  | zero => simp [pairSum]
  | succ k ih =>
    rw [pairSum, ih, pairSum, Nat.add_assoc, show a + 2 * (k + 1) = a + 2 + 2 * k by omega]

/-- The word sum, taken apart at its first word. -/
theorem wordSum_add_two (m : Memory) (a len : Nat) :
    wordSum m a (len + 2) = m.memRead a 2 + wordSum m (a + 2) len := by
  have hlast : a + (len + 2) - 1 = a + 2 + len - 1 := by omega
  rw [wordSum, wordSum, Nat.add_div_right len (by decide), pairSum_succ_first, Nat.add_mod_right, hlast, Nat.add_assoc]

/-- Settles O33: the first word is the pair of bytes at the start of the range. -/
theorem wordSumPairsFromTheFirstByte : Obligations.WordSumPairsFromTheFirstByte := fun m a =>
  ⟨wordSum_zero m a, wordSum_one m a, fun len => by rw [wordSum_add_two, Memory.memRead_two]⟩

/-- Ranges of one length whose bytes agree one by one have the same sum. -/
theorem wordSum_congr (h : ∀ k, k < len → m.read (a + k) = n.read (b + k)) : wordSum m a len = wordSum n b len := by
  induction len using Nat.twoStepInduction generalizing a b with
  | zero => rw [wordSum_zero, wordSum_zero]
  | one =>
    have h0 := h 0 (by decide)
    rw [Nat.add_zero, Nat.add_zero] at h0
    rw [wordSum_one, wordSum_one, h0]
  | more len ih _ =>
    have h0 := h 0 (by omega)
    have hrest : wordSum m (a + 2) len = wordSum n (b + 2) len := by
      refine ih fun k hk => ?_
      rw [Nat.add_assoc, Nat.add_assoc, h (2 + k) (by omega)]
    rw [Nat.add_zero, Nat.add_zero] at h0
    rw [wordSum_add_two, wordSum_add_two, Memory.memRead_two, Memory.memRead_two, h0, h 1 (by omega), hrest]

/-- Settles O40: the word sums are equal. -/
theorem checksumDependsOnlyOnItsRange : Obligations.ChecksumDependsOnlyOnItsRange := by
  intro m n a b len e h
  rw [checksum, checksum, wordSum_congr h]

/-! ## Self-verification -/

/-- A value stored over a zero word of the range is added to the sum. -/
theorem wordSum_memWrite_field {f v : Nat} (hv : v < 65536) (haf : a ≤ f) (hf : f + 1 < a + len)
    (heven : (f - a) % 2 = 0) (hzero : m.memRead f 2 = 0) :
    wordSum (m.memWrite f 2 v) a len = wordSum m a len + v := by
  induction len using Nat.twoStepInduction generalizing a with
  | zero => omega
  | one => omega
  | more len ih _ =>
    rw [wordSum_add_two, wordSum_add_two]
    rcases Nat.eq_or_lt_of_le haf with rfl | hlt
    · have hrest : wordSum (m.memWrite a 2 v) (a + 2) len = wordSum m (a + 2) len :=
        wordSum_congr fun k _ => Memory.read_memWrite_outside _ _ _ _ _ (by omega)
      rw [Memory.memRead_memWrite_same _ _ _ _ hv, hrest, hzero]
      omega
    · have hfirst : (m.memWrite f 2 v).memRead a 2 = m.memRead a 2 :=
        Memory.memRead_congr _ _ _ _ fun y _ hy => Memory.read_memWrite_outside _ _ _ _ _ (by omega)
      rw [hfirst, ih (by omega) (by omega) (by omega), Nat.add_assoc]

/-- Settles O41: the sum and the complement of its fold add up to a non-zero multiple of 65535. -/
theorem storedChecksumVerifiesToZero : Obligations.StoredChecksumVerifiesToZero := by
  intro m a len f e haf hf heven h0 h1
  have hfield : m.memRead f 2 = 0 := by rw [Memory.memRead_two, h0, h1]; rfl
  have hzero := fold_eq_zero_iff (x := wordSum m a len + e)
  have hmod := fold_mod (wordSum m a len + e)
  have hlt := fold_lt (wordSum m a len + e)
  rw [checksum_eq_zero_iff, wordSum_memWrite_field (BitVec.isLt _) haf hf heven hfield, toNat_checksum]
  omega

/-! ## The bounds of the sum -/

theorem memRead_two_le (m : Memory) (a : Nat) : m.memRead a 2 ≤ 0xFFFF := Nat.le_of_lt_succ (Memory.memRead_lt m a 2)

theorem pairSum_le (m : Memory) (a k : Nat) : pairSum m a k ≤ k * 0xFFFF := by
  induction k with
  | zero => exact Nat.zero_le _
  | succ k ih =>
    have hword := memRead_two_le m (a + 2 * k)
    rw [pairSum]
    omega

/-- A range has half as many words as bytes, the odd byte counted as one (40_checksum_engine.md R133). -/
theorem wordSum_le (m : Memory) (a len : Nat) : wordSum m a len ≤ (len + 1) / 2 * 0xFFFF := by
  have hpairs := pairSum_le m a (len / 2)
  have hlast := (m.read (a + len - 1)).isLt
  rw [wordSum]
  split
  · next hodd =>
    rw [show (len + 1) / 2 = len / 2 + 1 by omega]
    omega
  · rw [show (len + 1) / 2 = len / 2 by omega]
    exact hpairs

theorem toNat_append_bytes (x y : Byte) : (x ++ y).toNat = x.toNat * 256 + y.toNat := by
  rw [BitVec.toNat_append, ← Nat.shiftLeft_add_eq_or_of_lt y.isLt, Nat.shiftLeft_eq]

/-- Two bytes joined, the one at the lower address high, are the word that MemRead reads. -/
theorem toNat_read_append (m : Memory) (a : Nat) : (m.read a ++ m.read (a + 1)).toNat = m.memRead a 2 := by
  rw [toNat_append_bytes, Memory.memRead_two]

/-- A 32-bit register does not wrap over as many words as a buffer has. -/
theorem toNat_accPairs {k : Nat} (hk : k ≤ 32768) : (accPairs m a k).toNat = pairSum m a k := by
  induction k with
  | zero => rfl
  | succ k ih =>
    have hsum := pairSum_le m a (k + 1)
    rw [pairSum] at hsum
    rw [accPairs, pairSum, BitVec.toNat_add, ih (by omega), BitVec.toNat_setWidth_of_le (by decide), toNat_read_append,
      Nat.mod_eq_of_lt (by omega)]

theorem toNat_lastByte (x : Byte) : (x.zeroExtend 32 <<< 8).toNat = x.toNat * 256 := by
  have hx := x.isLt
  rw [BitVec.toNat_shiftLeft, BitVec.toNat_setWidth_of_le (by decide), Nat.shiftLeft_eq, Nat.mod_eq_of_lt (by omega)]

theorem toNat_accSum (hlen : len ≤ 65535) : (accSum m a len).toNat = wordSum m a len := by
  have hle := wordSum_le m a len
  have hpairs : (accPairs m a (len / 2)).toNat = pairSum m a (len / 2) := toNat_accPairs (by omega)
  rw [wordSum] at hle ⊢
  rw [accSum]
  split
  · next hodd =>
    rw [if_pos hodd] at hle
    rw [BitVec.toNat_add, hpairs, toNat_lastByte, Nat.mod_eq_of_lt (by omega)]
  · exact hpairs

/-- Settles O35: at most 32768 words, and six more in the addend. -/
theorem accumulatorNeverWraps : Obligations.AccumulatorNeverWraps := by
  intro m a len e hlen he
  have hle := wordSum_le m a len
  exact ⟨by omega, by omega, toNat_accSum hlen⟩

/-! ## End-around carry -/

/-- One addition with end-around carry is an addition and one round of the loop. -/
theorem toNat_endAroundAdd_eq_round (acc w : Half) :
    (endAroundAdd acc w).toNat = (acc.toNat + w.toNat) % 65536 + (acc.toNat + w.toNat) / 65536 := by
  have hacc := acc.isLt
  have hw := w.isLt
  have ht : (acc.zeroExtend 17 + w.zeroExtend 17).toNat = acc.toNat + w.toNat := by
    rw [BitVec.toNat_add, BitVec.toNat_setWidth_of_le (by decide), BitVec.toNat_setWidth_of_le (by decide),
      Nat.mod_eq_of_lt (by omega)]
  have hcarry : (acc.toNat + w.toNat) / 2 ^ 16 < 2 ^ 1 := by omega
  have hfits : (acc.toNat + w.toNat) % 2 ^ 16 + (acc.toNat + w.toNat) / 2 ^ 16 < 2 ^ 16 := by omega
  rw [endAroundAdd, BitVec.toNat_add, BitVec.toNat_setWidth_of_le (by decide), BitVec.extractLsb'_toNat,
    BitVec.extractLsb'_toNat, ht, Nat.shiftRight_zero, Nat.shiftRight_eq_div_pow, Nat.mod_eq_of_lt hcarry,
    Nat.mod_eq_of_lt hfits]
  rfl

/-- One addition with end-around carry is an addition and a fold. -/
theorem toNat_endAroundAdd (acc w : Half) : (endAroundAdd acc w).toNat = fold (acc.toNat + w.toNat) := by
  have hround := toNat_endAroundAdd_eq_round acc w
  rw [← fold_round, ← hround, fold_of_lt (endAroundAdd acc w).isLt]

theorem toNat_endAroundPairs (m : Memory) (a k : Nat) : (endAroundPairs m a k).toNat = fold (pairSum m a k) := by
  induction k with
  | zero => rfl
  | succ k ih => rw [endAroundPairs, toNat_endAroundAdd, ih, toNat_read_append, fold_fold_add, pairSum]

/-- Settles O37: the accumulator is the folded sum after every word. -/
theorem endAroundCarryGivesTheSameSum : Obligations.EndAroundCarryGivesTheSameSum := by
  intro m a len
  rw [endAroundSum, wordSum]
  split
  · rw [toNat_endAroundAdd, toNat_endAroundPairs, toNat_append_bytes, fold_fold_add,
      show (0 : Byte).toNat = 0 from rfl, Nat.add_zero]
  · exact toNat_endAroundPairs m a (len / 2)

/-! ## The single fold -/

/-- One addition and a truncation agree with Fold exactly when the addition does not carry. -/
theorem round_mod_eq_fold_iff (hx : x < 2 ^ 32) :
    (x % 65536 + x / 65536) % 65536 = fold x ↔ x % 65536 + x / 65536 < 65536 := by
  rw [← fold_round x]
  have hround : x % 65536 + x / 65536 ≤ 0x1FFFE := by omega
  generalize x % 65536 + x / 65536 = r at hround ⊢
  by_cases hr : r < 65536
  · rw [fold_of_lt hr]
    omega
  · rw [← fold_round r, fold_of_lt (by omega)]
    omega

theorem singleFoldChecksum_eq_iff (hx : x < 2 ^ 32) :
    singleFoldChecksum x = ~~~ (BitVec.ofNat 16 (fold x)) ↔ x % 65536 + x / 65536 < 0x10000 := by
  rw [singleFoldChecksum, BitVec.not_inj, ← BitVec.toNat_inj, BitVec.toNat_ofNat, BitVec.toNat_ofNat,
    Nat.mod_eq_of_lt (fold_lt x)]
  exact round_mod_eq_fold_iff hx

/-- The checksum of a range whose word sum is known. -/
theorem checksum_of_wordSum {w : Nat} (h : wordSum m a len = w) :
    checksum m a len 0 = ~~~ (BitVec.ofNat 16 (fold w)) := by
  rw [checksum, h, Nat.add_zero]

/-- Settles O38: on the six bytes the first addition carries. -/
theorem singleFoldIsWrong : Obligations.SingleFoldIsWrong := by
  have hsum : wordSum (Memory.cleared.load 0 [0xFF, 0xFF, 0xFF, 0xFF, 0x00, 0x01]) 0 6 = 0x1FFFF := by decide
  refine ⟨fun x hx => singleFoldChecksum_eq_iff hx, hsum, ?_, by decide⟩
  rw [checksum_of_wordSum hsum, fold_of_pos (by decide)]
  decide

/-! ## The corner cases -/

/-- A row of the table, from its word sum and its fold. -/
theorem cornerCase_of {bytes : List Byte} {w f : Nat} (hsum : wordSum (Memory.cleared.load 0 bytes) 0 bytes.length = w)
    (hfold : fold w = f) : CornerCase bytes w f (~~~ (BitVec.ofNat 16 f)) :=
  ⟨hsum, hfold, by rw [checksum_of_wordSum hsum, hfold]⟩

/-- Settles O39, row by row. -/
theorem checksumCornerCases : Obligations.ChecksumCornerCases :=
  ⟨cornerCase_of (by decide) fold_zero,
    cornerCase_of (by decide) fold_zero,
    cornerCase_of (by decide) (fold_of_lt (by decide)),
    cornerCase_of (by decide) (fold_of_lt (by decide)),
    cornerCase_of (by decide) (fold_of_lt (by decide)),
    cornerCase_of (by decide) (fold_of_lt (by decide)),
    cornerCase_of (by decide) (fold_of_pos (by decide)),
    cornerCase_of (by decide) (fold_of_pos (by decide)),
    cornerCase_of (by decide) (fold_of_pos (by decide)),
    cornerCase_of (by decide) (fold_of_pos (by decide))⟩

/-! ## CSUM -/

theorem exec_csum_uninit (he : s.err = none) (hp : s.phase = .uninit) :
    exec .csum s = .next { s with err := some .uninit } := by
  rw [exec, execCsum, unlessFaulted_ok he, needCleared_uninit hp]

theorem exec_csum_range (he : s.err = none) (hp : s.phase ≠ .uninit)
    (hr : s.params.bufBytes < s.ckOff.toNat + s.ckLen.toNat) :
    exec .csum s = .next { s with err := some .range } := by
  rw [exec, execCsum, unlessFaulted_ok he, needCleared_cleared hp, needInRange_over hr]

theorem exec_csum_inside (he : s.err = none) (hp : s.phase ≠ .uninit)
    (hr : s.ckOff.toNat + s.ckLen.toNat ≤ s.params.bufBytes) :
    exec .csum s = .next { s with result := checksum s.buf s.ckOff.toNat s.ckLen.toNat 0 } := by
  rw [exec, execCsum, unlessFaulted_ok he, needCleared_cleared hp, needInRange_inside hr]

theorem checksum_empty (m : Memory) (a : Nat) : checksum m a 0 0 = 0xFFFF := checksum_eq_ffff_iff.2 rfl

/-- Settles O23: the checks in their order; an empty range sums to 0. -/
theorem csumStoresTheRangeChecksum : Obligations.CsumStoresTheRangeChecksum := by
  refine ⟨decode_encode .csum, fun s he => ⟨exec_csum_uninit he, exec_csum_range he, exec_csum_inside he,
    fun hp hoff hlen => ?_⟩⟩
  have hzero : s.ckLen.toNat = 0 := congrArg BitVec.toNat hlen
  rw [exec_csum_inside he hp (by omega), hzero, checksum_empty]

end Sys2Proof.Machine
end

section
/-! SUPPORT. Proofs about the header serialiser (41_header_serialiser.md): CLR, the bytes HDR writes, what a built packet
depends on, and the invariant that every step keeps. -/

namespace Sys2Proof.Machine

variable {s t s₁ s₂ : State} {m n : Memory} {i : Instr} {a k len e p v x : Nat}
  {o : Host.Outcome State Fault Refusal}

/-! ## CLR -/

theorem exec_clr (he : s.err = none) : exec .clr s = .next { s with buf := Memory.cleared, phase := .opened } :=
  unlessFaulted_ok he

/-- No command but CLR leaves UNINIT (10_state.md R32). -/
theorem eq_clr_of_leaves_uninit (hp : s.phase = .uninit) (h : exec i s = .next t) (ht : t.phase ≠ .uninit) :
    i = .clr := by
  rcases exec_next_cases h with rfl | ⟨_, rfl⟩ | ⟨_, _, rfl⟩ | ⟨hi, _⟩ | ⟨_, rfl⟩ | ⟨_, ho, _⟩ | ⟨_, ho, _⟩ |
    ⟨_, ho, _⟩ | ⟨_, ho, _⟩
  · exact absurd hp ht
  · exact absurd hp ht
  · exact absurd hp ht
  · exact hi
  · exact absurd rfl ht
  all_goals exact absurd (hp.symm.trans ho) (by decide)

/-- Settles O22: the buffer CLR leaves is the cleared one. -/
theorem clrZeroesTheBufferAndOpens : Obligations.ClrZeroesTheBufferAndOpens :=
  ⟨decode_encode .clr, fun _ he => ⟨_, exec_clr he, Memory.read_cleared⟩, fun _ _ _ => eq_clr_of_leaves_uninit⟩

/-! ## The checks of the commands that change the buffer -/

/-- PMAX is BUF_BYTES - 28 (00_scope.md R5). -/
theorem bufBytes_sub_hdrBytes (p : Params) : p.bufBytes - 28 = p.pmax.val := Nat.add_sub_cancel_left 28 _

theorem hdrBytes_le_bufBytes (p : Params) : 28 ≤ p.bufBytes := Nat.le_add_right 28 _

theorem checked_uninit (he : s.err = none) (hp : s.phase = .uninit) :
    unlessFaulted s (needOpen s o) = .next { s with err := some .uninit } := by
  rw [unlessFaulted_ok he, needOpen_uninit hp]

theorem checked_sealed (he : s.err = none) (hp : s.phase = .sealed) :
    unlessFaulted s (needOpen s o) = .next { s with err := some .sealed } := by
  rw [unlessFaulted_ok he, needOpen_sealed hp]

theorem checked_len (he : s.err = none) (hp : s.phase = .opened)
    (hlen : s.params.bufBytes - 28 < s.payloadLen.toNat) :
    unlessFaulted s (needOpen s (needFits s o)) = .next { s with err := some .len } := by
  rw [bufBytes_sub_hdrBytes] at hlen
  rw [unlessFaulted_ok he, needOpen_opened hp, needFits_over hlen]

theorem checked_fits (he : s.err = none) (hp : s.phase = .opened)
    (hlen : s.payloadLen.toNat ≤ s.params.bufBytes - 28) : unlessFaulted s (needOpen s (needFits s o)) = o := by
  rw [bufBytes_sub_hdrBytes] at hlen
  exact checked_ok he hp hlen

/-! ## HDR -/

theorem exec_hdr_fits (he : s.err = none) (hp : s.phase = .opened)
    (hlen : s.payloadLen.toNat ≤ s.params.bufBytes - 28) :
    exec .hdr s = .next (serialiseHeaders (payload s) s) := checked_fits he hp hlen

theorem extractLowByte_eq {w : Nat} (y : BitVec w) : y.extractLsb' 0 8 = BitVec.ofNat 8 y.toNat := by
  simpa using extractByte_eq y 0

theorem extractSecondByte_eq {w : Nat} (y : BitVec w) : y.extractLsb' 8 8 = BitVec.ofNat 8 (y.toNat / 256) := by
  simpa using extractByte_eq y 1

/-- The high byte of a number is that of its low 16 bits. -/
theorem ofNat_mod_half_div (x : Nat) : BitVec.ofNat 8 (x % 65536 / 256) = BitVec.ofNat 8 (x / 256) := by
  apply BitVec.eq_of_toNat_eq
  simp only [BitVec.toNat_ofNat]
  omega

/-- The low byte of a number is that of its low 16 bits. -/
theorem ofNat_mod_half (x : Nat) : BitVec.ofNat 8 (x % 65536) = BitVec.ofNat 8 x := by
  apply BitVec.eq_of_toNat_eq
  simp only [BitVec.toNat_ofNat]
  omega

/-- `SerialiseHeaders` writes the bytes of the two tables, both checksum fields zero (30_encoding.md R96, R98). -/
theorem serialiseHeaders_bytes (s : State) :
    (serialiseHeaders (payload s) s).buf.bytes 28 = headerImage s 0x0000 0x0000 := by
  have h2 (y : Word) : y.extractLsb' 16 8 = BitVec.ofNat 8 (y.toNat / 256 ^ 2) := extractByte_eq y 2
  have h3 (y : Word) : y.extractLsb' 24 8 = BitVec.ofNat 8 (y.toNat / 256 ^ 3) := extractByte_eq y 3
  rw [Memory.bytes, headerImage, show List.range 28 = [0, 1, 2, 3, 4, 5, 6, 7, 8, 9, 10, 11, 12, 13, 14, 15, 16, 17, 18,
    19, 20, 21, 22, 23, 24, 25, 26, 27] from rfl]
  simp [-serialiseHeaders_buf, serialiseHeaders_read, extractLowByte_eq, extractSecondByte_eq, h2, h3, ofNat_mod_half,
    ofNat_mod_half_div, payload]

/-- Settles O24: the checks in their order, then `SerialiseHeaders`. -/
theorem hdrWritesTheHeaderBytes : Obligations.HdrWritesTheHeaderBytes :=
  ⟨decode_encode .hdr, fun s he => ⟨checked_uninit he, checked_sealed he, checked_len he, fun hp hlen =>
    ⟨_, exec_hdr_fits he hp hlen, serialiseHeaders_bytes s, fun _ => serialiseHeaders_read_above _ s⟩⟩⟩

/-! ## PKT and the length fields -/

/-- What PKT leaves when it passes its checks (42_checksum_passes.md R183). -/
def packetBuilt (s : State) : State := sealPacket (ipPass (udpPass (payload s) (serialiseHeaders (payload s) s)))

theorem exec_pkt_fits (he : s.err = none) (hp : s.phase = .opened)
    (hlen : s.payloadLen.toNat ≤ s.params.bufBytes - 28) : exec .pkt s = .next (packetBuilt s) :=
  checked_fits he hp hlen

/-- A packet that fits the buffer has a total length of 16 bits (41_header_serialiser.md R156). -/
theorem packet_fits_half (hlen : s.payloadLen.toNat ≤ s.params.bufBytes - 28) : 28 + payload s < 65536 := by
  have hmax := s.params.pmax.isLt
  rw [bufBytes_sub_hdrBytes] at hlen
  rw [payload]
  omega

/-- A 16-bit number from its two bytes. -/
theorem toNat_bytes_of_lt (h : x < 65536) :
    (BitVec.ofNat 8 (x / 256)).toNat * 256 + (BitVec.ofNat 8 x).toNat = x := by
  rw [BitVec.toNat_ofNat, BitVec.toNat_ofNat]
  omega

theorem serialiseHeaders_totalLength (h : 28 + p < 65536) : (serialiseHeaders p s).buf.memRead 2 2 = 20 + 8 + p := by
  rw [Memory.memRead_two, serialiseHeaders_read, serialiseHeaders_read]
  exact toNat_bytes_of_lt h

theorem serialiseHeaders_udpLength (h : 28 + p < 65536) : (serialiseHeaders p s).buf.memRead 24 2 = 8 + p := by
  rw [Memory.memRead_two, serialiseHeaders_read, serialiseHeaders_read]
  exact toNat_bytes_of_lt (x := 8 + p) (by omega)

@[simp] theorem packetBuilt_buf (s : State) :
    (packetBuilt s).buf = (ipPass (udpPass (payload s) (serialiseHeaders (payload s) s))).buf := by
  rw [packetBuilt, sealPacket_buf]

@[simp] theorem packetBuilt_udpCsum (s : State) :
    (packetBuilt s).udpCsum = udpChecksum (payload s) (serialiseHeaders (payload s) s) := by
  rw [packetBuilt, sealPacket_udpCsum, ipPass_udpCsum, udpPass_udpCsum]

@[simp] theorem packetBuilt_ipCsum (s : State) :
    (packetBuilt s).ipCsum = ipChecksum (udpPass (payload s) (serialiseHeaders (payload s) s)) := by
  rw [packetBuilt, sealPacket_ipCsum, ipPass_ipCsum]

@[simp] theorem payload_packetBuilt (s : State) : payload (packetBuilt s) = payload s := by
  simp [payload, packetBuilt]

/-- PKT reads as HDR outside the two checksum fields. -/
theorem packetBuilt_read_other (s : State) (h10 : x ≠ 10) (h11 : x ≠ 11) (h26 : x ≠ 26) (h27 : x ≠ 27) :
    (packetBuilt s).buf.read x = (serialiseHeaders (payload s) s).buf.read x := by
  rw [packetBuilt_buf, ipPass_read_other _ h10 h11, udpPass_read_other _ _ h26 h27]

/-- Settles O29: the checksum passes leave the length fields that `SerialiseHeaders` writes. -/
theorem lengthFieldsMatchThePayload : Obligations.LengthFieldsMatchThePayload := by
  intro i s hi he hp
  rcases hi with rfl | rfl
  · refine ⟨fun hlen => ⟨_, exec_hdr_fits he hp hlen, ?_⟩, checked_len he hp⟩
    have hfits := packet_fits_half hlen
    exact ⟨serialiseHeaders_totalLength hfits, serialiseHeaders_udpLength hfits⟩
  · refine ⟨fun hlen => ⟨_, exec_pkt_fits he hp hlen, ?_⟩, checked_len he hp⟩
    have hfits := packet_fits_half hlen
    have hkept (a : Nat) (ha : a = 2 ∨ a = 24) :
        (packetBuilt s).buf.memRead a 2 = (serialiseHeaders (payload s) s).buf.memRead a 2 :=
      Memory.memRead_congr _ _ _ _ fun x _ _ =>
        packetBuilt_read_other s (by omega) (by omega) (by omega) (by omega)
    rw [hkept 2 (.inl rfl), hkept 24 (.inr rfl)]
    exact ⟨serialiseHeaders_totalLength hfits, serialiseHeaders_udpLength hfits⟩

/-! ## What a built packet depends on -/

/-- Two blocks that agree on all that `SerialiseHeaders` and the passes take from outside the buffer: the seven operand
registers and UDP_PSEUDO (41_header_serialiser.md R157). -/
structure SameConfiguration (s₁ s₂ : State) : Prop where
  udpPseudo : s₁.params.udpPseudo = s₂.params.udpPseudo
  srcAddr : s₁.srcAddr = s₂.srcAddr
  dstAddr : s₁.dstAddr = s₂.dstAddr
  srcPort : s₁.srcPort = s₂.srcPort
  dstPort : s₁.dstPort = s₂.dstPort
  ttl : s₁.ttl = s₂.ttl
  ident : s₁.ident = s₂.ident
  payloadLen : s₁.payloadLen = s₂.payloadLen

/-- The two buffers hold the same bytes below address `k`. -/
def Memory.AgreeBelow (k : Nat) (m n : Memory) : Prop := ∀ x, x < k → m.read x = n.read x

theorem Memory.AgreeBelow.memWrite (h : m.AgreeBelow k n) (a len v : Nat) :
    (m.memWrite a len v).AgreeBelow k (n.memWrite a len v) := by
  intro x hx
  rw [Memory.read_memWrite, Memory.read_memWrite, h x hx]

theorem Memory.AgreeBelow.bytes_eq (h : m.AgreeBelow k n) : m.bytes k = n.bytes k :=
  List.map_congr_left fun x hx => h x (List.mem_range.1 hx)

theorem Memory.AgreeBelow.checksum_eq (h : m.AgreeBelow k n) (hk : a + len ≤ k) :
    checksum m a len e = checksum n a len e :=
  checksumDependsOnlyOnItsRange m n a a len e fun j hj => h (a + j) (by omega)

theorem SameConfiguration.afterHeaders (h : SameConfiguration s₁ s₂) (p : Nat) :
    SameConfiguration (serialiseHeaders p s₁) (serialiseHeaders p s₂) := by
  obtain ⟨hpseudo, hsrc, hdst, hsport, hdport, httl, hident, hlen⟩ := h
  constructor <;> simpa

theorem SameConfiguration.pseudoSum_eq (h : SameConfiguration s₁ s₂) (p : Nat) : pseudoSum p s₁ = pseudoSum p s₂ := by
  rw [pseudoSum, pseudoSum, h.udpPseudo, h.srcAddr, h.dstAddr]

/-- The headers come from the registers, the bytes behind them from the payload. -/
theorem SameConfiguration.serialiseHeaders_agree (h : SameConfiguration s₁ s₂)
    (hpay : ∀ j, j < p → s₁.buf.read (28 + j) = s₂.buf.read (28 + j)) :
    (serialiseHeaders p s₁).buf.AgreeBelow (28 + p) (serialiseHeaders p s₂).buf := by
  intro x hx
  by_cases hx28 : x < 28
  · rw [serialiseHeaders_read, serialiseHeaders_read, h.ident, h.ttl, h.srcAddr, h.dstAddr, h.srcPort, h.dstPort]
    interval_cases x <;> rfl
  · obtain ⟨j, rfl⟩ := Nat.exists_eq_add_of_le (Nat.le_of_not_lt hx28)
    rw [serialiseHeaders_read_above _ _ (by omega), serialiseHeaders_read_above _ _ (by omega), hpay j (by omega)]

theorem SameConfiguration.udpChecksum_eq (h : SameConfiguration s₁ s₂) (hbuf : s₁.buf.AgreeBelow (28 + p) s₂.buf) :
    udpChecksum p s₁ = udpChecksum p s₂ := by
  rw [udpChecksum, udpChecksum, h.pseudoSum_eq]
  exact (hbuf.memWrite 26 2 0).checksum_eq (by rw [udpLength]; omega)

theorem SameConfiguration.udpPass_agree (h : SameConfiguration s₁ s₂) (hbuf : s₁.buf.AgreeBelow (28 + p) s₂.buf) :
    (udpPass p s₁).buf.AgreeBelow (28 + p) (udpPass p s₂).buf := by
  rw [udpPass_buf, udpPass_buf, h.udpChecksum_eq hbuf]
  exact (hbuf.memWrite _ _ _).memWrite _ _ _

theorem Memory.AgreeBelow.ipChecksum_eq (h : s₁.buf.AgreeBelow k s₂.buf) (hk : 20 ≤ k) :
    ipChecksum s₁ = ipChecksum s₂ :=
  (h.memWrite 10 2 0).checksum_eq hk

theorem Memory.AgreeBelow.ipPass (h : s₁.buf.AgreeBelow k s₂.buf) (hk : 20 ≤ k) :
    (ipPass s₁).buf.AgreeBelow k (ipPass s₂).buf := by
  rw [ipPass_buf, ipPass_buf, h.ipChecksum_eq hk]
  exact (h.memWrite _ _ _).memWrite _ _ _

/-- Settles O30: the three steps of PKT keep the agreement on the packet, one after the other. -/
theorem sameConfigurationBuildsTheSamePacket : Obligations.SameConfigurationBuildsTheSamePacket := by
  intro s₁ s₂ he₁ he₂ hp₁ hp₂ hpseudo hsrc hdst hsport hdport httl hident hpl hlen₁ hlen₂ hpay
  have hcfg : SameConfiguration s₁ s₂ := ⟨hpseudo, hsrc, hdst, hsport, hdport, httl, hident, hpl⟩
  have hp : payload s₁ = payload s₂ := congrArg BitVec.toNat hpl
  have hheaders := hcfg.serialiseHeaders_agree (p := payload s₁) hpay
  have hcfg' := hcfg.afterHeaders (payload s₁)
  have hudp := hcfg'.udpPass_agree hheaders
  refine ⟨_, _, exec_pkt_fits he₁ hp₁ hlen₁, exec_pkt_fits he₂ hp₂ hlen₂, ?_, ?_, ?_⟩
  · have hbytes := (hudp.ipPass (by omega)).bytes_eq
    rwa [State.packet, State.packet, packetBuilt_buf, packetBuilt_buf, payload_packetBuilt, payload_packetBuilt, ← hp]
  · rw [packetBuilt_udpCsum, packetBuilt_udpCsum, ← hp, hcfg'.udpChecksum_eq hheaders]
  · rw [packetBuilt_ipCsum, packetBuilt_ipCsum, ← hp, hudp.ipChecksum_eq (by omega)]

/-! ## The invariant of every run -/

/-- Every cell the buffer lists is below address `k`. -/
def Memory.ListsBelow (k : Nat) (m : Memory) : Prop := ∀ c ∈ m.cells, c.1 < k

theorem Memory.ListsBelow.write (h : m.ListsBelow k) (ha : a < k) (b : Byte) : (m.write a b).ListsBelow k := by
  intro c hc
  rcases Memory.mem_write hc with ⟨rfl, -⟩ | hc
  · exact ha
  · exact h c hc

theorem Memory.ListsBelow.memWrite (h : m.ListsBelow k) (ha : a + len ≤ k) : (m.memWrite a len v).ListsBelow k := by
  intro c hc
  rcases Memory.mem_memWrite hc with ⟨_, hlt⟩ | hc
  · omega
  · exact h c hc

theorem Memory.ListsBelow.serialiseHeaders (h : s.buf.ListsBelow k) (hk : 28 ≤ k) :
    (serialiseHeaders p s).buf.ListsBelow k := by
  rw [serialiseHeaders_buf, udpHeader, ipHeader]
  iterate 14 refine Memory.ListsBelow.memWrite ?_ (by omega)
  exact h

theorem Memory.ListsBelow.udpPass (h : s.buf.ListsBelow k) (hk : 28 ≤ k) : (udpPass p s).buf.ListsBelow k := by
  rw [udpPass_buf]
  exact (h.memWrite hk).memWrite hk

theorem Memory.ListsBelow.ipPass (h : s.buf.ListsBelow k) (hk : 28 ≤ k) : (ipPass s).buf.ListsBelow k := by
  rw [ipPass_buf]
  exact (h.memWrite (by omega)).memWrite (by omega)

/-- The stored header checksum makes the header sum to zero (40_checksum_engine.md R140). -/
theorem ipPass_headerVerifies (s : State) : checksum (ipPass s).buf 0 20 0 = 0 := by
  rw [ipPass_buf, ipChecksum]
  exact storedChecksumVerifiesToZero _ 0 20 10 0 (by decide) (by decide) (by decide)
    (by simp [Memory.read_memWrite]) (by simp [Memory.read_memWrite])

theorem ipPass_reported (s : State) : (ipPass s).buf.memRead 10 2 = (ipChecksum s).toNat := by
  rw [ipPass_buf]
  exact Memory.memRead_memWrite_same _ _ _ _ (ipChecksum s).isLt

/-- The invariant speaks of the parameters, the phase, the buffer and IP_CSUM only. -/
theorem State.Inv.of_eq (h : s.Inv) (hparams : t.params = s.params) (hphase : t.phase = s.phase)
    (hbuf : t.buf = s.buf) (hck : t.ipCsum = s.ipCsum) : t.Inv := by
  obtain ⟨hcanonical, hin, huntouched, hdefined, hverifies, hreported⟩ := h
  constructor <;> simpa only [hparams, hphase, hbuf, hck]

/-- In OPEN the invariant is about the buffer alone. -/
theorem inv_of_opened (hp : t.phase = .opened) (hwf : t.buf.wf) (hin : t.buf.ListsBelow t.params.bufBytes)
    (hfill : t.buf.fill = .zeroed) : t.Inv where
  canonical := hwf
  inBuffer := hin
  untouched h := absurd (hp.symm.trans h) (by decide)
  defined _ := hfill
  headerVerifies h := absurd (hp.symm.trans h) (by decide)
  reported h := absurd (hp.symm.trans h) (by decide)

theorem State.Inv.fill_of_opened (h : s.Inv) (hp : s.phase = .opened) : s.buf.fill = .zeroed :=
  h.defined (by rw [hp]; decide)

theorem resetBlock_inv (s : State) : (resetBlock s).Inv where
  canonical := Memory.wf_nil _
  inBuffer _ hc := nomatch hc
  untouched _ := rfl
  defined h := absurd rfl h
  headerVerifies h := nomatch h
  reported h := nomatch h

theorem cleared_inv (s : State) : { s with buf := Memory.cleared, phase := .opened }.Inv :=
  inv_of_opened rfl Memory.wf_cleared (fun _ hc => nomatch hc) rfl

theorem write_inv (h : s.Inv) (hp : s.phase = .opened) (ha : a < s.params.bufBytes) (b : Byte) :
    { s with buf := s.buf.write a b }.Inv :=
  inv_of_opened hp (Memory.wf_write h.canonical a b) (Memory.ListsBelow.write h.inBuffer ha b) (h.fill_of_opened hp)

theorem serialiseHeaders_inv (h : s.Inv) (hp : s.phase = .opened) (p : Nat) : (serialiseHeaders p s).Inv := by
  apply inv_of_opened
  · rw [serialiseHeaders_phase, hp]
  · exact wf_serialiseHeaders h.canonical p
  · rw [serialiseHeaders_params]
    exact Memory.ListsBelow.serialiseHeaders h.inBuffer (hdrBytes_le_bufBytes s.params)
  · rw [serialiseHeaders_fill, h.fill_of_opened hp]

theorem udpPass_inv (h : s.Inv) (hp : s.phase = .opened) (p : Nat) : (udpPass p s).Inv := by
  apply inv_of_opened
  · rw [udpPass_phase, hp]
  · exact wf_udpPass h.canonical p
  · rw [udpPass_params]
    exact Memory.ListsBelow.udpPass h.inBuffer (hdrBytes_le_bufBytes s.params)
  · rw [udpPass_buf, Memory.memWrite_fill, Memory.memWrite_fill, h.fill_of_opened hp]

/-- The IPv4 pass and the seal bring a block from OPEN to SEALED. -/
theorem sealPacket_ipPass_inv (h : s.Inv) (hp : s.phase = .opened) : (sealPacket (ipPass s)).Inv := by
  constructor
  case canonical =>
    rw [sealPacket_buf]
    exact wf_ipPass h.canonical
  case inBuffer =>
    rw [sealPacket_buf, sealPacket_params, ipPass_params]
    exact Memory.ListsBelow.ipPass h.inBuffer (hdrBytes_le_bufBytes s.params)
  case untouched => exact fun hu => nomatch hu
  case defined =>
    intro _
    rw [sealPacket_buf, ipPass_buf, Memory.memWrite_fill, Memory.memWrite_fill, h.fill_of_opened hp]
  case headerVerifies =>
    intro _
    rw [sealPacket_buf, ipPass_headerVerifies]
  case reported =>
    intro _
    rw [sealPacket_buf, sealPacket_ipCsum, ipPass_ipCsum, ipPass_reported]

/-- Every command keeps the invariant. -/
theorem exec_inv (h : s.Inv) (hx : exec i s = .next t) : t.Inv := by
  rcases exec_next_cases hx with rfl | ⟨_, rfl⟩ | ⟨_, _, rfl⟩ | ⟨_, _, rfl⟩ | ⟨_, rfl⟩ | ⟨_, hp, _, rfl⟩ |
    ⟨_, hp, _, rfl⟩ | ⟨_, hp, rfl⟩ | ⟨_, hp, _, rfl⟩
  · exact h
  · exact h.of_eq rfl rfl rfl rfl
  · exact h.of_eq rfl rfl rfl rfl
  · exact cleared_inv s
  · exact resetBlock_inv s
  · exact serialiseHeaders_inv h hp _
  · exact udpPass_inv h hp _
  · exact sealPacket_ipPass_inv h hp
  · exact sealPacket_ipPass_inv (udpPass_inv (serialiseHeaders_inv h hp _) (by simpa using hp) _) (by simpa using hp)

/-- Every transaction keeps the invariant. -/
theorem transact_inv {y : Txn} (h : s.Inv) (hy : transact y s = .next t) : t.Inv := by
  rcases transact_next hy with rfl | ⟨_, rfl⟩ | ⟨_, rfl⟩ | ⟨_, rfl⟩ | ⟨_, _, _, _, hx⟩ | ⟨_, _, _, _, _, _, rfl⟩ |
    ⟨_, _, _, _, hp, ha, rfl⟩
  · exact h
  · exact h.of_eq rfl rfl rfl rfl
  · exact h.of_eq rfl rfl rfl rfl
  · exact resetBlock_inv s
  · exact exec_inv h hx
  · exact h.of_eq (writeReg_params ..) (writeReg_phase ..) (writeReg_buf ..) (writeReg_ipCsum ..)
  · exact write_inv h hp ha _

/-- Settles O49: a step holds the state or is one transaction. -/
theorem everyStepKeepsTheInvariant : Obligations.EveryStepKeepsTheInvariant := by
  intro s t h hstep
  rcases step_next hstep with ⟨_, rfl⟩ | ⟨y, rest, _, hy⟩
  · exact h
  · have hrest : { s with pending := rest }.Inv := h.of_eq rfl rfl rfl rfl
    exact transact_inv hrest hy

end Sys2Proof.Machine
end

section
/-! SUPPORT. Proofs about the checksum passes (42_checksum_passes.md): the fields UDPCK, IPCK and PKT write, PKT as its
three steps, what a finished packet verifies to, and the sealed block. -/

namespace Sys2Proof.Machine

variable {s t : State} {m n : Memory} {c : Half} {i : Instr} {a f len p : Nat}

/-! ## A checksum field -/

/-- The field the passes sum over reads zero, and every other byte is the packet's (42_checksum_passes.md R180, R182). -/
theorem zeroedField_read (m : Memory) (f : Nat) :
    (m.memWrite f 2 0).read f = 0 ∧ (m.memWrite f 2 0).read (f + 1) = 0 ∧
      ∀ x, x ≠ f → x ≠ f + 1 → (m.memWrite f 2 0).read x = m.read x := by
  refine ⟨by simp [Memory.read_memWrite], by simp [Memory.read_memWrite], fun x h0 h1 => ?_⟩
  exact Memory.read_memWrite_outside _ _ _ _ _ (by omega)

theorem zeroedField_read_of_zero (h0 : m.read f = 0) (h1 : m.read (f + 1) = 0) (x : Nat) :
    (m.memWrite f 2 0).read x = m.read x := by
  obtain ⟨hfirst, hsecond, hother⟩ := zeroedField_read m f
  by_cases hx0 : x = f
  · rw [hx0, hfirst, h0]
  by_cases hx1 : x = f + 1
  · rw [hx1, hsecond, h1]
  exact hother x hx0 hx1

/-- A buffer that reads as another but for a 16-bit field has the bytes of the field in their two places. -/
theorem Memory.bytes_of_read_field
    (h : ∀ x, n.read x = if x = f then c.extractLsb' 8 8 else if x = f + 1 then c.extractLsb' 0 8 else m.read x)
    (len : Nat) : n.bytes len = ((m.bytes len).set f (c.extractLsb' 8 8)).set (f + 1) (c.extractLsb' 0 8) := by
  refine List.ext_getElem (by simp [Memory.bytes]) fun x hx _ => ?_
  have hread : (n.bytes len)[x] = n.read x := by simp [Memory.bytes]
  rw [hread, h, List.getElem_set, List.getElem_set]
  by_cases h0 : x = f
  · rw [if_pos h0, if_neg (by omega), if_pos h0.symm]
  by_cases h1 : x = f + 1
  · rw [if_neg h0, if_pos h1, if_pos h1.symm]
  rw [if_neg h0, if_neg h1, if_neg (Ne.symm h1), if_neg (Ne.symm h0)]
  simp [Memory.bytes]

/-! ## UDPCK -/

theorem exec_udpck_fits (he : s.err = none) (hp : s.phase = .opened)
    (hlen : s.payloadLen.toNat ≤ s.params.bufBytes - 28) :
    exec .udpck s = .next (udpPass (payload s) s) := checked_fits he hp hlen

/-- The two halves of a register as 42_checksum_passes.md R181 takes them. -/
theorem toNat_extract_halves (w : Word) :
    (w.extractLsb' 16 16).toNat = w.toNat / 65536 ∧ (w.extractLsb' 0 16).toNat = w.toNat % 65536 := by
  have hlt := w.isLt
  simp only [BitVec.extractLsb'_toNat, Nat.shiftRight_eq_div_pow]
  omega

/-- The addend of the UDP pass is the one the spec words on numbers (42_checksum_passes.md R181). -/
theorem pseudoSum_payload (s : State) : pseudoSum (payload s) s = pseudoWords s := by
  obtain ⟨hsrcHigh, hsrcLow⟩ := toNat_extract_halves s.srcAddr
  obtain ⟨hdstHigh, hdstLow⟩ := toNat_extract_halves s.dstAddr
  rw [pseudoSum, pseudoWords, hsrcHigh, hsrcLow, hdstHigh, hdstLow]
  rfl

theorem udpChecksum_payload (s : State) :
    udpChecksum (payload s) s = checksum (s.buf.memWrite 26 2 0) 20 (8 + s.payloadLen.toNat) (pseudoWords s) := by
  rw [udpChecksum, pseudoSum_payload]
  rfl

/-- Settles O25: the checks in their order, then the UDP pass, whose field reads zero while it sums. -/
theorem udpckStoresTheUdpChecksum : Obligations.UdpckStoresTheUdpChecksum := by
  refine ⟨decode_encode .udpck, fun s he => ⟨checked_uninit he, checked_sealed he, checked_len he, fun hp hlen => ?_⟩⟩
  refine ⟨s.buf.memWrite 26 2 0, (udpPass (payload s) s).buf, udpChecksum (payload s) s, zeroedField_read s.buf 26,
    udpChecksum_payload s, exec_udpck_fits he hp hlen, ?_, ?_, fun x => udpPass_read_other _ s⟩
  · rw [udpPass_read, if_pos rfl]
  · rw [udpPass_read, if_neg (by decide), if_pos rfl]

/-! ## IPCK -/

theorem exec_ipck_opened (he : s.err = none) (hp : s.phase = .opened) :
    exec .ipck s = .next (sealPacket (ipPass s)) := by
  rw [exec, execIpck, unlessFaulted_ok he, needOpen_opened hp]

/-- The first byte of a header that HDR wrote keeps its sum above zero (42_checksum_passes.md R182). -/
theorem ipChecksum_ne_ffff (h : s.buf.read 0 = 0x45) : ipChecksum s ≠ 0xFFFF := by
  have hfirst : (s.buf.memWrite 10 2 0).memRead 0 2 ≠ 0 := by
    rw [Memory.memRead_two, Memory.read_memWrite_outside _ _ _ _ _ (by decide), h]
    simp
  rw [ipChecksum, Ne, checksum_eq_ffff_iff, wordSum_add_two _ 0 18]
  omega

/-- A buffer of zeros sums to zero (42_checksum_passes.md R182). -/
theorem ipChecksum_of_zero (h : ∀ x, s.buf.read x = 0) : ipChecksum s = 0xFFFF := by
  have hsum : wordSum (s.buf.memWrite 10 2 0) 0 20 = wordSum Memory.cleared 0 20 :=
    wordSum_congr fun k _ => by
      rw [zeroedField_read_of_zero (h 10) (h 11), h, Memory.read_cleared]
  rw [ipChecksum, checksum_eq_ffff_iff, hsum]
  decide

/-- Settles O26: the checks in their order, then the IPv4 pass, whose field reads zero while it sums, and the seal. -/
theorem ipckStoresTheHeaderChecksumAndSeals : Obligations.IpckStoresTheHeaderChecksumAndSeals := by
  refine ⟨decode_encode .ipck, fun s he => ⟨checked_uninit he, checked_sealed he, fun hp => ?_⟩⟩
  refine ⟨s.buf.memWrite 10 2 0, (ipPass s).buf, ipChecksum s, zeroedField_read s.buf 10, rfl, ipChecksum_ne_ffff,
    ipChecksum_of_zero, exec_ipck_opened he hp, ?_, ?_, fun x => ipPass_read_other s⟩
  · rw [ipPass_read, if_pos rfl]
  · rw [ipPass_read, if_neg (by decide), if_pos rfl]

/-! ## The passes do not see each other's field -/

/-- The header checksum does not look at the UDP field. -/
theorem ipChecksum_udpPass (p : Nat) (s : State) : ipChecksum (udpPass p s) = ipChecksum s := by
  have hbuf : (udpPass p s).buf.AgreeBelow 20 s.buf := fun x hx => udpPass_read_other p s (by omega) (by omega)
  exact hbuf.ipChecksum_eq (Nat.le_refl 20)

theorem pseudoSum_ipPass (p : Nat) (s : State) : pseudoSum p (ipPass s) = pseudoSum p s := by simp [pseudoSum]

/-- The UDP checksum does not look at the header checksum. -/
theorem udpChecksum_ipPass (p : Nat) (s : State) : udpChecksum p (ipPass s) = udpChecksum p s := by
  rw [udpChecksum, udpChecksum, pseudoSum_ipPass]
  refine checksumDependsOnlyOnItsRange _ _ _ _ _ _ fun k _ => ?_
  rw [Memory.read_memWrite, Memory.read_memWrite, ipPass_read_other s (by omega) (by omega)]

theorem udpPass_ipPass_read (p : Nat) (s : State) (x : Nat) :
    (udpPass p (ipPass s)).buf.read x = (ipPass (udpPass p s)).buf.read x := by
  rw [udpPass_read, ipPass_read, ipPass_read, udpPass_read, udpChecksum_ipPass, ipChecksum_udpPass]
  by_cases h10 : x = 10
  · simp [h10]
  by_cases h11 : x = 11
  · simp [h11]
  simp [h10, h11]

theorem udpPass_ipPass_buf (hwf : s.buf.wf) (p : Nat) :
    (udpPass p (ipPass s)).buf = (ipPass (udpPass p s)).buf :=
  Memory.eq_of_read_eq (wf_udpPass (wf_ipPass hwf) p) (wf_ipPass (wf_udpPass hwf p)) (by simp) (udpPass_ipPass_read p s)

/-- Settles O31: the two checksums do not depend on the order, nor does any byte of the buffer. -/
theorem passesDoNotDependOnTheirOrder : Obligations.PassesDoNotDependOnTheirOrder := by
  intro p s hwf
  calc udpPass p (ipPass s)
      = { s with
          buf := (udpPass p (ipPass s)).buf
          udpCsum := udpChecksum p (ipPass s)
          ipCsum := ipChecksum s } := rfl
    _ = { s with
          buf := (ipPass (udpPass p s)).buf
          udpCsum := udpChecksum p s
          ipCsum := ipChecksum (udpPass p s) } := by
        rw [udpPass_ipPass_buf hwf, udpChecksum_ipPass, ipChecksum_udpPass]
    _ = ipPass (udpPass p s) := rfl

/-! ## PKT -/

@[simp] theorem payload_serialiseHeaders (p : Nat) (s : State) : payload (serialiseHeaders p s) = payload s := by
  rw [payload, serialiseHeaders_payloadLen, payload]

theorem pseudoSum_serialiseHeaders (p q : Nat) (s : State) : pseudoSum p (serialiseHeaders q s) = pseudoSum p s := by
  simp [pseudoSum]

/-- `SerialiseHeaders` leaves both checksum fields zero (41_header_serialiser.md R153). -/
theorem serialiseHeaders_read_checksumField {x : Nat} (p : Nat) (s : State)
    (hx : x = 10 ∨ x = 11 ∨ x = 26 ∨ x = 27) : (serialiseHeaders p s).buf.read x = 0 := by
  rw [serialiseHeaders_read]
  rcases hx with rfl | rfl | rfl | rfl <;> rfl

/-- After `SerialiseHeaders` zeroing the UDP field again changes nothing: PKT sums the serialised packet itself. -/
theorem udpChecksum_serialiseHeaders (p q : Nat) (s : State) :
    udpChecksum p (serialiseHeaders q s) = checksum (serialiseHeaders q s).buf 20 (8 + p) (pseudoSum p s) := by
  rw [udpChecksum, pseudoSum_serialiseHeaders]
  refine checksumDependsOnlyOnItsRange _ _ _ _ _ _ fun k _ => zeroedField_read_of_zero ?_ ?_ _
  · exact serialiseHeaders_read_checksumField _ _ (by decide)
  · exact serialiseHeaders_read_checksumField _ _ (by decide)

theorem ipChecksum_serialiseHeaders (p : Nat) (s : State) :
    ipChecksum (serialiseHeaders p s) = checksum (serialiseHeaders p s).buf 0 20 0 := by
  refine checksumDependsOnlyOnItsRange _ _ _ _ _ _ fun k _ => zeroedField_read_of_zero ?_ ?_ _
  · exact serialiseHeaders_read_checksumField _ _ (by decide)
  · exact serialiseHeaders_read_checksumField _ _ (by decide)

/-- The two passes put their checksums into the headers and leave the other header bytes. -/
theorem packetBuilt_bytes (s : State) :
    (packetBuilt s).buf.bytes 28 = headerImage s (packetBuilt s).ipCsum (packetBuilt s).udpCsum := by
  rw [packetBuilt_buf, packetBuilt_ipCsum, packetBuilt_udpCsum, Memory.bytes_of_read_field (ipPass_read _),
    Memory.bytes_of_read_field (udpPass_read _ _), serialiseHeaders_bytes]
  rfl

/-- PKT changes the buffer, the report registers of the two checksums and the phase, and nothing else
(42_checksum_passes.md R183). -/
theorem packetBuilt_eq (s : State) :
    packetBuilt s = { s with
      buf := (packetBuilt s).buf
      udpCsum := (packetBuilt s).udpCsum
      ipCsum := (packetBuilt s).ipCsum
      phase := .sealed } := by
  simp only [packetBuilt, sealPacket, ipPass, udpPass, serialiseHeaders]

/-- Settles O27: the checks in their order, then the three steps of PKT on the serialised packet. -/
theorem pktBuildsTheFinishedPacket : Obligations.PktBuildsTheFinishedPacket := by
  refine ⟨decode_encode .pkt, fun s he => ⟨checked_uninit he, checked_sealed he, checked_len he, fun hp hlen => ?_⟩⟩
  refine ⟨(serialiseHeaders (payload s) s).buf, (packetBuilt s).buf, (packetBuilt s).udpCsum, (packetBuilt s).ipCsum,
    ⟨serialiseHeaders_bytes s, fun x => serialiseHeaders_read_above _ s⟩, ?_, ?_, ?_,
    packetBuilt_bytes s, fun x hx => ?_⟩
  · rw [packetBuilt_udpCsum, udpChecksum_serialiseHeaders, pseudoSum_payload]
    rfl
  · rw [packetBuilt_ipCsum, ipChecksum_udpPass, ipChecksum_serialiseHeaders]
  · rw [exec_pkt_fits he hp hlen, ← packetBuilt_eq]
  · rw [packetBuilt_buf, pktSteps_read_above _ s hx]

/-! ## PKT as HDR, UDPCK and IPCK -/

/-- What an error of HDR leaves, or a block that was faulted before, UDPCK and IPCK ignore (60_exceptions.md R221). -/
theorem udpck_ipck_faulted (he : t.err ≠ none) : andThen (andThen (.next t) (exec .udpck)) (exec .ipck) = .next t := by
  have hudpck : exec .udpck t = .next t := unlessFaulted_faulted he
  have hipck : exec .ipck t = .next t := unlessFaulted_faulted he
  rw [andThen, hudpck, andThen, hipck]

theorem hdr_udpck_ipck_fits (he : s.err = none) (hp : s.phase = .opened)
    (hlen : s.payloadLen.toNat ≤ s.params.bufBytes - 28) :
    andThen (andThen (exec .hdr s) (exec .udpck)) (exec .ipck) = .next (packetBuilt s) := by
  have hudpck : exec .udpck (serialiseHeaders (payload s) s) =
      .next (udpPass (payload s) (serialiseHeaders (payload s) s)) := by
    rw [exec_udpck_fits (by simpa using he) (by simpa using hp) (by simpa using hlen), payload_serialiseHeaders]
  rw [exec_hdr_fits he hp hlen, andThen, hudpck, andThen, exec_ipck_opened (by simpa using he) (by simpa using hp),
    packetBuilt]

/-- Settles O28: a refusal of HDR is PKT's and makes the passes ignored; an accepted HDR leaves what the passes check. -/
theorem pktIsHdrThenUdpckThenIpck : Obligations.PktIsHdrThenUdpckThenIpck := by
  intro s
  have refused {t : State} (hhdr : exec .hdr s = .next t) (hpkt : exec .pkt s = .next t) (ht : t.err ≠ none) :
      andThen (andThen (exec .hdr s) (exec .udpck)) (exec .ipck) = exec .pkt s := by
    rw [hhdr, hpkt, udpck_ipck_faulted ht]
  by_cases he : s.err = none
  · cases hp : s.phase with
    | uninit => exact refused (checked_uninit he hp) (checked_uninit he hp) (Option.some_ne_none _)
    | sealed => exact refused (checked_sealed he hp) (checked_sealed he hp) (Option.some_ne_none _)
    | opened =>
      by_cases hlen : s.payloadLen.toNat ≤ s.params.bufBytes - 28
      · rw [hdr_udpck_ipck_fits he hp hlen, exec_pkt_fits he hp hlen]
      · have hover := Nat.lt_of_not_le hlen
        exact refused (checked_len he hp hover) (checked_len he hp hover) (Option.some_ne_none _)
  · exact refused (unlessFaulted_faulted he) (unlessFaulted_faulted he) he

/-! ## What a finished packet verifies to -/

/-- A packet whose UDP portion is not all zero verifies, without the addend, to the addend (42_checksum_passes.md R187):
the stored checksum cancels the sum and the addend modulo 65535. -/
theorem udpPass_portionVerifies (hsum : wordSum (s.buf.memWrite 26 2 0) 20 (8 + p) ≠ 0) :
    (checksum (udpPass p s).buf 20 (8 + p) 0).toNat = pseudoSum p s % 65535 := by
  have hfield : (s.buf.memWrite 26 2 0).memRead 26 2 = 0 := Memory.memRead_memWrite_same _ _ _ _ (by decide)
  have hstored : wordSum (udpPass p s).buf 20 (8 + p) =
      wordSum (s.buf.memWrite 26 2 0) 20 (8 + p) + (udpChecksum p s).toNat := by
    rw [udpPass_buf]
    exact wordSum_memWrite_field (BitVec.isLt _) (by decide) (by omega) (by decide) hfield
  have hck : (udpChecksum p s).toNat =
      65535 - fold (wordSum (s.buf.memWrite 26 2 0) 20 (8 + p) + pseudoSum p s) := toNat_checksum _ _ _ _
  have hmod := fold_mod (wordSum (s.buf.memWrite 26 2 0) 20 (8 + p) + pseudoSum p s)
  have hlt := fold_lt (wordSum (s.buf.memWrite 26 2 0) 20 (8 + p) + pseudoSum p s)
  rw [toNat_checksum, hstored, hck, fold_of_pos (by omega)]
  omega

/-- The length field is one of the words of the UDP portion, and it is at least 8. -/
theorem serialiseHeaders_portion_ne_zero (hfits : 28 + p < 65536) :
    wordSum ((serialiseHeaders p s).buf.memWrite 26 2 0) 20 (8 + p) ≠ 0 := by
  have hlength : ((serialiseHeaders p s).buf.memWrite 26 2 0).memRead 24 2 = 8 + p := by
    rw [← serialiseHeaders_udpLength (s := s) hfits]
    exact Memory.memRead_congr _ _ _ _ fun x _ hx => Memory.read_memWrite_outside _ _ _ _ _ (by omega)
  rw [show 8 + p = 2 + p + 2 + 2 + 2 by omega, wordSum_add_two, wordSum_add_two, wordSum_add_two, hlength]
  omega

/-- The UDP portion of a finished packet, for both values of UDP_PSEUDO (42_checksum_passes.md R187). -/
theorem packetBuilt_portionVerifies (hlen : s.payloadLen.toNat ≤ s.params.bufBytes - 28) :
    (checksum (packetBuilt s).buf 20 (8 + s.payloadLen.toNat) 0).toNat = fold (pseudoWords s) % 65535 := by
  have hpass : checksum (packetBuilt s).buf 20 (8 + payload s) 0 =
      checksum (udpPass (payload s) (serialiseHeaders (payload s) s)).buf 20 (8 + payload s) 0 := by
    refine checksumDependsOnlyOnItsRange _ _ _ _ _ _ fun k _ => ?_
    rw [packetBuilt_buf, ipPass_read_other _ (by omega) (by omega)]
  rw [fold_mod, ← pseudoSum_payload, ← pseudoSum_serialiseHeaders _ (payload s),
    ← udpPass_portionVerifies (serialiseHeaders_portion_ne_zero (packet_fits_half hlen)), ← hpass, payload]

theorem packetBuilt_headerVerifies (s : State) : checksum (packetBuilt s).buf 0 20 0 = 0 := by
  rw [packetBuilt_buf, ipPass_headerVerifies]

/-- Settles O32: both ways build the same packet, and the addend is 0 without the pseudo-header. -/
theorem finishedPacketVerifies : Obligations.FinishedPacketVerifies := by
  intro s he hp hlen
  refine ⟨packetBuilt s, exec_pkt_fits he hp hlen, hdr_udpck_ipck_fits he hp hlen, packetBuilt_headerVerifies s,
    fun hpseudo => ?_, fun _ => packetBuilt_portionVerifies hlen⟩
  have hzero : pseudoWords s = 0 := by simp [pseudoWords, hpseudo]
  apply BitVec.eq_of_toNat_eq
  rw [packetBuilt_portionVerifies hlen, hzero]
  rfl

/-! ## The sealed block -/

/-- On a sealed block only CLR and SRST change the phase or the buffer (42_checksum_passes.md R186). -/
theorem exec_sealed (hp : s.phase = .sealed) (h : exec i s = .next t) :
    (t.phase = .sealed ∧ t.buf = s.buf) ∨ i = .clr ∨ i = .srst := by
  rcases exec_next_cases h with rfl | ⟨_, rfl⟩ | ⟨_, _, rfl⟩ | ⟨hi, _⟩ | ⟨hi, _⟩ | ⟨_, ho, _⟩ | ⟨_, ho, _⟩ |
    ⟨_, ho, _⟩ | ⟨_, ho, _⟩
  · exact .inl ⟨hp, rfl⟩
  · exact .inl ⟨hp, rfl⟩
  · exact .inl ⟨hp, rfl⟩
  · exact .inr (.inl hi)
  · exact .inr (.inr hi)
  all_goals exact absurd (hp.symm.trans ho) (by decide)

/-- A transaction on a sealed block keeps phase and buffer, or is Reset, CLR or SRST. -/
theorem transact_sealed {y : Txn} (hp : s.phase = .sealed) (h : transact y s = .next t) :
    (t.phase = .sealed ∧ t.buf = s.buf) ∨ y = .reset ∨ y = .regWrite 0 (encode .clr) ∨
      y = .regWrite 0 (encode .srst) := by
  rcases transact_next h with rfl | ⟨_, rfl⟩ | ⟨_, rfl⟩ | ⟨hy, _⟩ | ⟨_, _, rfl, hd, hx⟩ | ⟨_, _, _, _, _, _, rfl⟩ |
    ⟨_, _, _, _, ho, _⟩
  · exact .inl ⟨hp, rfl⟩
  · exact .inl ⟨hp, rfl⟩
  · exact .inl ⟨hp, rfl⟩
  · exact .inr (.inl hy)
  · rw [eq_encode_of_decode hd]
    rcases exec_sealed hp hx with hkept | rfl | rfl
    · exact .inl hkept
    · exact .inr (.inr (.inl rfl))
    · exact .inr (.inr (.inr rfl))
  · exact .inl ⟨(writeReg_phase ..).trans hp, writeReg_buf ..⟩
  · exact absurd (hp.symm.trans ho) (by decide)

/-- Settles O43: a step holds the state or is one transaction. -/
theorem sealedPacketDoesNotChange : Obligations.SealedPacketDoesNotChange := by
  intro s t hp hstep
  rcases step_next hstep with ⟨_, rfl⟩ | ⟨y, rest, hpending, hy⟩
  · exact .inl ⟨hp, rfl⟩
  · rcases transact_sealed (s := { s with pending := rest }) hp hy with hkept | rfl | rfl | rfl
    · exact .inl hkept
    · exact .inr ⟨rest, .inl hpending⟩
    · exact .inr ⟨rest, .inr (.inl hpending)⟩
    · exact .inr ⟨rest, .inr (.inr hpending)⟩

end Sys2Proof.Machine
end

section
/-! SUPPORT. Proofs about the system commands (43_system_commands.md): NOP and SRST. -/

namespace Sys2Proof.Machine

/-! ## NOP -/

theorem exec_nop (s : State) : exec .nop s = .next s := rfl

/-- Settles O21: NOP is the word 0, and a word with an upper bit set is no command at all. -/
theorem nopChangesNothing : Obligations.NopChangesNothing := by
  refine ⟨decode_encode .nop, exec_nop, fun h => ?_⟩
  have hillegal : decode 0x00000100 = .error .upperBitsSet := decode_upperBitsSet (by decide)
  exact nomatch hillegal.symm.trans h

/-! ## SRST -/

theorem exec_srst (s : State) : exec .srst s = .next (resetBlock s) := rfl

theorem transact_reset (s : State) : transact .reset s = .next (resetBlock s) := rfl

/-- What SRST and Reset leave has every value of the reset table (10_state.md R44). -/
theorem resetFrom_resetBlock (s : State) : ResetFrom s (resetBlock s) where
  phase := resetBlock_phase s
  err := resetBlock_err s
  status := by rw [regRead_status, statusWord, resetBlock_err, resetBlock_phase]; rfl
  result := resetBlock_result s
  udpCsum := resetBlock_udpCsum s
  ipCsum := resetBlock_ipCsum s
  ckOff := resetBlock_ckOff s
  ckLen := resetBlock_ckLen s
  srcAddr := resetBlock_srcAddr s
  dstAddr := resetBlock_dstAddr s
  srcPort := resetBlock_srcPort s
  dstPort := resetBlock_dstPort s
  ttl := resetBlock_ttl s
  ident := resetBlock_ident s
  payloadLen := resetBlock_payloadLen s
  buf := ⟨s.fresh, fun _ => rfl⟩
  cmd := regRead_regNumber .cmd (resetBlock s)
  params := resetBlock_params s
  pending := resetBlock_pending s
  returned := resetBlock_returned s

/-- A faulted block executes a word written to CMD only if it is exactly SRST's (20_memory.md R63). -/
theorem regWrite_cmd_faulted {s : State} (he : s.err ≠ none) (v : Word) :
    regWrite 0 v s = if v = 0x00000007 then exec .srst s else .next s := by
  split
  case isTrue hv => rw [hv, regWrite_faulted_srst he]
  case isFalse hv => exact regWrite_faulted_ignored he fun ⟨_, h⟩ => hv h

/-- Settles O3: SRST and Reset leave the same block, and that block is a reset one. -/
theorem softResetResets : Obligations.SoftResetResets :=
  ⟨decode_encode .srst, fun s => ⟨resetBlock s, exec_srst s, resetFrom_resetBlock s, transact_reset s⟩,
    fun _ _ v he => regWrite_cmd_faulted (he ▸ Option.some_ne_none _) v⟩

end Sys2Proof.Machine
end

section
/-! SUPPORT. Proofs about the exceptions (60_exceptions.md): which error each command and each write raises, what an
error leaves unchanged, and what a faulted block still does. -/

namespace Sys2Proof.Machine

variable {s t u : State} {n : BitVec 14} {v : Word} {i : Instr} {x : Txn} {e : ErrCode} {o : Option ErrCode}
  {k : Host.Outcome State Fault Refusal}

theorem eq_of_next (hk : k = .next u) (h : k = .next t) : t = u := next_inj.1 (h.symm.trans hk)

/-! ## The error of a command -/

/-- The error of whatever changes the packet: E_UNINIT or E_SEALED by the phase, then `o` (60_exceptions.md R213, R214,
R220). -/
def openError (s : State) (o : Option ErrCode) : Option ErrCode :=
  match s.phase with
  | .uninit => some .uninit
  | .opened => o
  | .sealed => some .sealed

/-- The error of CSUM: E_UNINIT by the phase, then `o` (60_exceptions.md R213, R220). -/
def clearedError (s : State) (o : Option ErrCode) : Option ErrCode := if s.phase = .uninit then some .uninit else o

/-- E_LEN for a payload that does not fit (60_exceptions.md R215). -/
def lengthError (s : State) : Option ErrCode :=
  if s.params.bufBytes - 28 < s.payloadLen.toNat then some .len else none

/-- E_RANGE for a range that leaves the buffer (60_exceptions.md R216). -/
def rangeError (s : State) : Option ErrCode :=
  if s.params.bufBytes < s.ckOff.toNat + s.ckLen.toNat then some .range else none

/-- The error each command records on a block that is not faulted (60_exceptions.md R213 to R216). -/
def commandError (s : State) : Instr → Option ErrCode
  | .nop => none
  | .csum => clearedError s (rangeError s)
  | .clr => none
  | .hdr => openError s (lengthError s)
  | .udpck => openError s (lengthError s)
  | .ipck => openError s none
  | .pkt => openError s (lengthError s)
  | .srst => none

@[simp] theorem openError_eq_some_iff :
    openError s o = some e ↔
      (s.phase = .uninit ∧ e = .uninit) ∨ (s.phase = .sealed ∧ e = .sealed) ∨ (s.phase = .opened ∧ o = some e) := by
  cases hp : s.phase <;> simp [openError, hp, eq_comm]

@[simp] theorem clearedError_eq_some_iff :
    clearedError s o = some e ↔ (s.phase = .uninit ∧ e = .uninit) ∨ (s.phase ≠ .uninit ∧ o = some e) := by
  by_cases hp : s.phase = .uninit <;> simp [clearedError, hp, eq_comm]

@[simp] theorem lengthError_eq_some_iff :
    lengthError s = some e ↔ s.params.bufBytes - 28 < s.payloadLen.toNat ∧ e = .len := by
  simp [lengthError, eq_comm]

@[simp] theorem rangeError_eq_some_iff :
    rangeError s = some e ↔ s.params.bufBytes < s.ckOff.toNat + s.ckLen.toNat ∧ e = .range := by
  simp [rangeError, eq_comm]

/-! ## What ERR holds at the end of an operation -/

/-- The operation, if it answers a next state, leaves `o` in ERR. -/
def EndsWithErr (k : Host.Outcome State Fault Refusal) (o : Option ErrCode) : Prop := ∀ t, k = .next t → t.err = o

theorem EndsWithErr.next (h : u.err = o) : EndsWithErr (.next u) o := fun _ ht => next_inj.1 ht ▸ h

theorem EndsWithErr.unlessFaulted (hk : EndsWithErr k o) (he : s.err = none) : EndsWithErr (unlessFaulted s k) o := by
  rwa [unlessFaulted_ok he]

theorem EndsWithErr.needOpen (hk : EndsWithErr k o) : EndsWithErr (needOpen s k) (openError s o) := by
  intro t h
  rcases needOpen_next h with ⟨hp, rfl⟩ | ⟨hp, rfl⟩ | ⟨hp, h⟩
  · simp [openError, hp]
  · simp [openError, hp]
  · simp [openError, hp, hk t h]

theorem EndsWithErr.needCleared (hk : EndsWithErr k o) : EndsWithErr (needCleared s k) (clearedError s o) := by
  intro t h
  rcases needCleared_next h with ⟨hp, rfl⟩ | ⟨hp, h⟩
  · rw [clearedError, if_pos hp]
  · rw [clearedError, if_neg hp, hk t h]

theorem EndsWithErr.needFits (hk : EndsWithErr k none) : EndsWithErr (needFits s k) (lengthError s) := by
  intro t h
  rw [lengthError, bufBytes_sub_hdrBytes]
  rcases needFits_next h with ⟨hlen, rfl⟩ | ⟨hlen, h⟩
  · exact (if_pos hlen).symm
  · exact (hk t h).trans (if_neg (Nat.not_lt.2 hlen)).symm

theorem EndsWithErr.needInRange (hk : EndsWithErr k none) : EndsWithErr (needInRange s k) (rangeError s) := by
  intro t h
  rcases needInRange_next h with ⟨hr, rfl⟩ | ⟨hr, h⟩
  · rw [rangeError, if_pos hr]
  · rw [rangeError, if_neg (Nat.not_lt.2 hr), hk t h]

/-- A command that is not ignored records the error its checks come to, and its own effect records none. -/
theorem exec_endsWithErr (he : s.err = none) (i : Instr) : EndsWithErr (exec i s) (commandError s i) := by
  cases i with
  | nop => exact .next he
  | csum => exact .unlessFaulted (.needCleared (.needInRange (.next he))) he
  | clr => exact .unlessFaulted (.next he) he
  | hdr => exact .unlessFaulted (.needOpen (.needFits (.next (by simp [he])))) he
  | udpck => exact .unlessFaulted (.needOpen (.needFits (.next (by simp [he])))) he
  | ipck => exact .unlessFaulted (.needOpen (.next (by simp [he]))) he
  | pkt => exact .unlessFaulted (.needOpen (.needFits (.next (by simp [he])))) he
  | srst => exact .next (resetBlock_err s)

/-- A buffer write that is not ignored fails by the phase, then by the address (60_exceptions.md R216, R220). -/
theorem bufWrite_endsWithErr (he : s.err = none) (a : BitVec 16) (b : Byte) :
    EndsWithErr (bufWrite a b s) (openError s (if s.params.bufBytes ≤ a.toNat then some .range else none)) := by
  refine .unlessFaulted (.needOpen ?_) he
  split
  · exact .next rfl
  · exact .next he

/-- No read changes ERR (20_memory.md R70). -/
theorem respond_endsWithErr (r : Response) (s : State) : EndsWithErr (respond r s) s.err := .next rfl

/-- Settles O17: each code is read off the error of the command and of the buffer write. -/
theorem commandErrorsAreRaisedExactly : Obligations.CommandErrorsAreRaisedExactly := by
  refine ⟨⟨rfl, rfl, rfl, rfl⟩, fun i s t he h => ?_, fun a b s t he h => ?_, fun n a s t h => ?_⟩
  · rw [exec_endsWithErr he i t h]
    cases i <;> simp [commandError]
  · rw [bufWrite_endsWithErr he a b t h]
    simp
  · exact h.elim (respond_endsWithErr _ s t) (respond_endsWithErr _ s t)

/-! ## The errors of a register write -/

theorem execute_of_reject {r : Reject} (hd : decode v = .error r) :
    execute v s = .next { s with err := some .opcode } := by
  rw [execute, hd, raiseError_eq]

/-- The word is no command (60_exceptions.md R212). -/
theorem exists_reject (h : zeroField v ≠ 0 ∨ 8 ≤ (opField v).toNat) : ∃ r, decode v = .error r := by
  by_cases hz : zeroField v = 0
  · exact ⟨_, decode_reservedOpcode hz (h.resolve_left (not_not.2 hz))⟩
  · exact ⟨_, decode_upperBitsSet hz⟩

/-- Settles O7: the write to CMD executes the word, and the word is rejected. -/
theorem illegalWordRaisesOpcodeError : Obligations.IllegalWordRaisesOpcodeError := by
  refine ⟨rfl, fun s v rest he hp hv => ?_⟩
  obtain ⟨r, hd⟩ := exists_reject hv
  calc step s = regWrite 0 v { s with pending := rest } := step_cons hp
    _ = execute v { s with pending := rest } := regWrite_cmd he
    _ = .next { s with pending := rest, err := some .opcode } := execute_of_reject hd

/-- What a write to CMD executes raises neither of the errors of a register write. -/
theorem execute_err_ne (he : s.err = none) (h : execute v s = .next t) :
    t.err ≠ some .access ∧ t.err ≠ some .width := by
  rcases execute_next h with ⟨i, _, hx⟩ | ⟨_, rfl⟩
  · rw [exec_endsWithErr he i t hx]
    cases i <;> simp [commandError]
  · simp

/-- Settles O18: the register numbers fall into CMD, those that refuse every value, and the writable ones. -/
theorem registerErrorsAreRaisedExactly : Obligations.RegisterErrorsAreRaisedExactly := by
  refine ⟨⟨rfl, rfl⟩, fun n v s t he h => ?_⟩
  change regWrite n v s = .next t at h
  by_cases hn : 1 ≤ n.toNat ∧ n.toNat ≤ 4 ∨ 14 ≤ n.toNat
  · obtain rfl := eq_of_next (regWrite_access he hn) h
    exact ⟨iff_of_true rfl hn, iff_of_false (by simp) (by rintro ⟨h5, h13, -⟩; omega), fun _ => rfl⟩
  by_cases h0 : n = 0
  · subst h0
    obtain ⟨haccess, hwidth⟩ := execute_err_ne he ((regWrite_cmd he).symm.trans h)
    simp [haccess, hwidth]
  have h5 : 5 ≤ n.toNat := by bv_omega
  have h13 : n.toNat ≤ 13 := by omega
  obtain ⟨r, rfl, hr⟩ := exists_writable_regNumber h5 h13
  rw [widthOfNumber_regNumber hr]
  by_cases hv : 2 ^ regWidth r ≤ v.toNat
  · obtain rfl := eq_of_next (regWrite_width he hr hv) h
    simp [hn, h5, h13, hv]
  · obtain rfl := eq_of_next (regWrite_fits he hr (Nat.not_le.1 hv)) h
    simp [he, hn, hv]

/-! ## An error is precise -/

/-- A command on a block that is not faulted records no error, or changes nothing else. -/
theorem exec_err_none_or_only (he : s.err = none) (h : exec i s = .next t) :
    t.err = none ∨ ∃ e, t = { s with err := some e } := by
  rcases exec_next_cases h with rfl | ht | ⟨_, _, rfl⟩ | ⟨_, _, rfl⟩ | ⟨_, rfl⟩ | ⟨_, _, _, rfl⟩ | ⟨_, _, _, rfl⟩ |
    ⟨_, _, rfl⟩ | ⟨_, _, _, rfl⟩
  · exact .inl he
  · exact .inr ht
  all_goals simp [he]

/-- A transaction on a block that is not faulted records no error, or changes nothing else (60_exceptions.md R219). -/
theorem transact_err_none_or_only (he : s.err = none) (h : transact x s = .next t) :
    t.err = none ∨ ∃ e, t = { s with err := some e } := by
  rcases transact_next h with rfl | ht | ⟨_, rfl⟩ | ⟨_, rfl⟩ | ⟨_, _, _, _, hx⟩ | ⟨_, _, _, _, _, _, rfl⟩ |
    ⟨_, _, _, _, _, _, rfl⟩
  · exact .inl he
  · exact .inr ht
  · exact .inl he
  · exact .inl (resetBlock_err s)
  · exact exec_err_none_or_only he hx
  · exact .inl ((writeReg_err ..).trans he)
  · exact .inl he

/-! ## The faulted block -/

/-- A faulted block ignores every write but the word of SRST to CMD (60_exceptions.md R221). -/
theorem transact_faulted_ignored (he : s.err ≠ none) (hx : worksWhenFaulted x = false) : transact x s = .next s := by
  cases x with
  | regWrite n v => exact regWrite_faulted_ignored he (by simpa [worksWhenFaulted] using hx)
  | bufWrite a b => exact bufWrite_faulted he
  | reset => cases hx
  | regRead n => cases hx
  | bufRead a => cases hx

/-- A transaction on a faulted block keeps the error, or is a reset (60_exceptions.md R222). -/
theorem transact_faulted_next (he : s.err ≠ none) (h : transact x s = .next t) :
    t.err = s.err ∨ ((x = .reset ∨ x = .regWrite 0 0x00000007) ∧ t = resetBlock s) := by
  cases hx : worksWhenFaulted x with
  | false => exact .inl (congrArg State.err (eq_of_next (transact_faulted_ignored he hx) h))
  | true =>
    cases x with
    | reset => exact .inr ⟨.inl rfl, eq_of_next (transact_reset s) h⟩
    | regRead n => exact .inl (respond_endsWithErr _ s t h)
    | bufRead a => exact .inl (respond_endsWithErr _ s t h)
    | regWrite n v =>
      obtain ⟨rfl, rfl⟩ : n = 0 ∧ v = 0x00000007 := by simpa [worksWhenFaulted] using hx
      exact .inr ⟨.inr rfl, eq_of_next (regWrite_faulted_srst he) h⟩
    | bufWrite a b => cases hx

/-- A step of a faulted block keeps the error, or accepts a reset. -/
theorem step_faulted_next (he : s.err ≠ none) (h : step s = .next t) :
    t.err = s.err ∨ ∃ rest, (s.pending = .reset :: rest ∨ s.pending = .regWrite 0 0x00000007 :: rest) ∧
      t = resetBlock { s with pending := rest } := by
  rcases step_next h with ⟨_, rfl⟩ | ⟨x, rest, hp, hx⟩
  · exact .inl rfl
  rcases transact_faulted_next (s := { s with pending := rest }) he hx with hkept | ⟨hreset, ht⟩
  · exact .inl hkept
  · exact .inr ⟨rest, by simpa [hp] using hreset, ht⟩

/-- Settles O16: an error is recorded by a transaction that does nothing else, and a faulted block keeps its code or is
reset. -/
theorem errorEntryIsPrecise : Obligations.ErrorEntryIsPrecise := by
  refine ⟨fun s t e he h ht => ?_, fun s t e he h => ?_⟩
  · rcases step_next h with ⟨_, rfl⟩ | ⟨x, rest, hp, hx⟩
    · exact absurd (he.symm.trans ht) (by simp)
    rcases transact_err_none_or_only (s := { s with pending := rest }) he hx with hnone | ⟨e', rfl⟩
    · exact absurd (hnone.symm.trans ht) (by simp)
    · obtain rfl := Option.some.inj ht
      rw [hp, List.tail_cons]
  · rcases step_faulted_next (he ▸ Option.some_ne_none e) h with hkept | ⟨_, _, rfl⟩
    · exact .inl (hkept.trans he)
    · exact .inr (resetBlock_err _)

/-- Settles O20: a step that does not keep the error is a reset, which leaves the reset values. -/
theorem onlyResetsClearAnError : Obligations.OnlyResetsClearAnError := by
  intro s t e he h hne
  rcases step_faulted_next (he ▸ Option.some_ne_none e) h with hkept | ⟨rest, hp, rfl⟩
  · exact absurd (hkept.trans he) hne
  · refine ⟨⟨rest, hp⟩, ?_⟩
    have htail : s.pending.tail = rest := by rcases hp with hp | hp <;> rw [hp, List.tail_cons]
    rw [htail]
    exact resetFrom_resetBlock _

/-- No register but STATUS shows ERR. -/
theorem regRead_err (hn : n ≠ 1) (o : Option ErrCode) : regRead n { s with err := o } = regRead n s := by
  by_cases h14 : 14 ≤ n.toNat
  · rw [regRead_reserved h14, regRead_reserved h14]
  · obtain ⟨r, rfl⟩ := exists_regNumber (n := n) (by omega)
    rw [regRead_regNumber, regRead_regNumber]
    cases r
    case status => exact absurd rfl hn
    all_goals rfl

/-- Settles O19: the ignored writes, and the two reads, which do not look at ERR. -/
theorem faultedBlockIgnoresWrites : Obligations.FaultedBlockIgnoresWrites :=
  ⟨fun _ _ _ he hp hx => (step_cons hp).trans (transact_faulted_ignored he hx),
    fun _ _ hn => (regRead_err hn none).symm, fun _ _ => rfl⟩

end Sys2Proof.Machine
end

section
/-! SUPPORT. Proofs about reset and hazards (70_reset_and_hazards.md): what no host can observe of the unspecified
buffer content, the end of every transaction, the parameters, and the finished packet. -/

namespace Sys2Proof.Machine

variable {s t : State} {o o' : Host.Outcome State Fault Refusal} {i : Instr} {x : Txn}

/-! ## What no host can observe -/

/-- `t` is `s` but for what no host can observe: which unspecified content comes next and, in UNINIT, the buffer
(70_reset_and_hazards.md R242). -/
inductive SameVisible (s : State) : State → Prop
  | fresh (n : Nat) : SameVisible s { s with fresh := n }
  | buffer (m : Memory) (n : Nat) (hp : s.phase = .uninit) : SameVisible s { s with buf := m, fresh := n }

namespace SameVisible

theorem refl (s : State) : SameVisible s s := .fresh s.fresh

theorem params_eq (h : SameVisible s t) : t.params = s.params := by cases h <;> rfl
theorem phase_eq (h : SameVisible s t) : t.phase = s.phase := by cases h <;> rfl
theorem err_eq (h : SameVisible s t) : t.err = s.err := by cases h <;> rfl
theorem pending_eq (h : SameVisible s t) : t.pending = s.pending := by cases h <;> rfl
theorem returned_eq (h : SameVisible s t) : t.returned = s.returned := by cases h <;> rfl
theorem payload_eq (h : SameVisible s t) : payload t = payload s := by cases h <;> rfl
theorem range_eq (h : SameVisible s t) : t.ckOff.toNat + t.ckLen.toNat = s.ckOff.toNat + s.ckLen.toNat := by
  cases h <;> rfl

/-- From CLR on the buffers are the same. -/
theorem eq_of_ne_uninit (h : SameVisible s t) (hp : s.phase ≠ .uninit) : ∃ n, t = { s with fresh := n } := by
  cases h with
  | fresh n => exact ⟨n, rfl⟩
  | buffer m n hu => exact absurd hu hp

theorem setErr (h : SameVisible s t) (e : Option ErrCode) : SameVisible { s with err := e } { t with err := e } := by
  cases h with
  | fresh n => exact .fresh n
  | buffer m n hp => exact .buffer m n hp

theorem setPending (h : SameVisible s t) (ts : List Txn) :
    SameVisible { s with pending := ts } { t with pending := ts } := by
  cases h with
  | fresh n => exact .fresh n
  | buffer m n hp => exact .buffer m n hp

theorem setReturned (h : SameVisible s t) (rs : List Response) :
    SameVisible { s with returned := rs } { t with returned := rs } := by
  cases h with
  | fresh n => exact .fresh n
  | buffer m n hp => exact .buffer m n hp

theorem writeReg (h : SameVisible s t) (v : Word) (r : Reg) : SameVisible (writeReg s v r) (writeReg t v r) := by
  cases h with
  | fresh n => cases r <;> exact .fresh n
  | buffer m n hp => cases r <;> exact .buffer m n hp

/-- CLR makes two buffers the same. -/
theorem cleared (h : SameVisible s t) :
    SameVisible { s with buf := Memory.cleared, phase := .opened }
      { t with buf := Memory.cleared, phase := .opened } := by
  cases h <;> exact .fresh _

/-- A reset leaves two unspecified contents that nothing shows. -/
theorem resetBlock (h : SameVisible s t) : SameVisible (resetBlock s) (resetBlock t) := by
  cases h <;> exact .buffer _ _ rfl

theorem regRead_eq (h : SameVisible s t) (n : BitVec 14) : regRead n t = regRead n s := by
  cases hr : regOfNumber n with
  | none => rw [regRead, regRead, hr]
  | some r => rw [regRead, regRead, hr]; cases h <;> cases r <;> rfl

/-- No read shows the buffer in UNINIT (20_memory.md R64). -/
theorem bufRead_eq (h : SameVisible s t) (a : BitVec 16) : bufRead a t = bufRead a s := by
  by_cases hp : s.phase = .uninit
  · rw [bufRead_gated (.inl hp), bufRead_gated (.inl (h.phase_eq.trans hp))]
  · obtain ⟨n, rfl⟩ := h.eq_of_ne_uninit hp
    rfl

end SameVisible

/-! ## Outcomes that show the same -/

/-- Both operations answer a next state, and the two states show the same. -/
def EndAlike (o o' : Host.Outcome State Fault Refusal) : Prop :=
  ∃ s t, o = .next s ∧ o' = .next t ∧ SameVisible s t

theorem SameVisible.next (h : SameVisible s t) : EndAlike (.next s) (.next t) := ⟨s, t, rfl, rfl, h⟩

theorem SameVisible.raiseError (h : SameVisible s t) (e : ErrCode) : EndAlike (raiseError e s) (raiseError e t) :=
  (h.setErr (some e)).next

theorem SameVisible.respond (h : SameVisible s t) (r : Response) : EndAlike (respond r s) (respond r t) := by
  rw [Machine.respond, Machine.respond, h.returned_eq]
  exact (h.setReturned _).next

/-- An effect that carries the number of the next unspecified content along, and looks at it nowhere. -/
def CarriesFresh (f : State → State) : Prop := ∀ s n, f { s with fresh := n } = { f s with fresh := n }

theorem CarriesFresh.comp {f g : State → State} (hf : CarriesFresh f) (hg : CarriesFresh g) :
    CarriesFresh fun s => f (g s) := fun s n => (congrArg f (hg s n)).trans (hf (g s) n)

theorem CarriesFresh.next {f : State → State} {n : Nat} (hf : CarriesFresh f) (ht : t = { s with fresh := n }) :
    EndAlike (.next (f s)) (.next (f t)) := by
  rw [ht, hf s n]
  exact (SameVisible.fresh n).next

theorem carriesFresh_csum :
    CarriesFresh fun s => { s with result := checksum s.buf s.ckOff.toNat s.ckLen.toNat 0 } := fun _ _ => rfl

theorem carriesFresh_bufWrite (a : BitVec 16) (b : Byte) :
    CarriesFresh fun s => { s with buf := s.buf.write a.toNat b } := fun _ _ => rfl

theorem carriesFresh_serialiseHeaders (p : Nat) : CarriesFresh (serialiseHeaders p) := fun _ _ => rfl

theorem carriesFresh_udpPass (p : Nat) : CarriesFresh (udpPass p) := fun _ _ => rfl

theorem carriesFresh_sealPacket_ipPass : CarriesFresh fun s => sealPacket (ipPass s) := fun _ _ => rfl

theorem carriesFresh_hdr : CarriesFresh fun s => serialiseHeaders (payload s) s :=
  fun s => carriesFresh_serialiseHeaders (payload s) s

theorem carriesFresh_udpck : CarriesFresh fun s => udpPass (payload s) s :=
  fun s => carriesFresh_udpPass (payload s) s

/-- PKT, step by step; its payload length is one that the states share. -/
theorem carriesFresh_packetBuilt : CarriesFresh packetBuilt := fun s =>
  carriesFresh_sealPacket_ipPass.comp
    ((carriesFresh_udpPass (payload s)).comp (carriesFresh_serialiseHeaders (payload s))) s

/-! The shared checks decide the same on states that show the same. -/

namespace SameVisible

theorem unlessFaulted (h : SameVisible s t) (hk : EndAlike o o') :
    EndAlike (unlessFaulted s o) (unlessFaulted t o') := by
  by_cases he : s.err = none
  · rwa [unlessFaulted_ok he, unlessFaulted_ok (h.err_eq.trans he)]
  · rw [unlessFaulted_faulted he, unlessFaulted_faulted (h.err_eq ▸ he)]
    exact h.next

theorem needCleared (h : SameVisible s t) (hk : ∀ n, t = { s with fresh := n } → EndAlike o o') :
    EndAlike (needCleared s o) (needCleared t o') := by
  by_cases hp : s.phase = .uninit
  · rw [needCleared_uninit hp, needCleared_uninit (h.phase_eq.trans hp)]
    exact h.raiseError .uninit
  · rw [needCleared_cleared hp, needCleared_cleared (h.phase_eq ▸ hp)]
    obtain ⟨n, ht⟩ := h.eq_of_ne_uninit hp
    exact hk n ht

theorem needOpen (h : SameVisible s t) (hk : ∀ n, t = { s with fresh := n } → EndAlike o o') :
    EndAlike (needOpen s o) (needOpen t o') := by
  have hphase := h.phase_eq
  cases hp : s.phase with
  | uninit =>
    rw [needOpen_uninit hp, needOpen_uninit (hphase.trans hp)]
    exact h.raiseError .uninit
  | sealed =>
    rw [needOpen_sealed hp, needOpen_sealed (hphase.trans hp)]
    exact h.raiseError .sealed
  | opened =>
    rw [needOpen_opened hp, needOpen_opened (hphase.trans hp)]
    obtain ⟨n, ht⟩ := h.eq_of_ne_uninit (by rw [hp]; decide)
    exact hk n ht

theorem needFits (h : SameVisible s t) (hk : EndAlike o o') : EndAlike (needFits s o) (needFits t o') := by
  rw [Machine.needFits, Machine.needFits, h.payload_eq, h.params_eq]
  split
  · exact h.raiseError .len
  · exact hk

theorem needInRange (h : SameVisible s t) (hk : EndAlike o o') : EndAlike (needInRange s o) (needInRange t o') := by
  rw [Machine.needInRange, Machine.needInRange, h.range_eq, h.params_eq]
  split
  · exact h.raiseError .range
  · exact hk

/-! ## Commands, transactions, steps -/

theorem exec (h : SameVisible s t) (i : Instr) : EndAlike (exec i s) (exec i t) := by
  cases i with
  | nop => exact h.next
  | csum => exact h.unlessFaulted (h.needCleared fun _ ht => h.needInRange (carriesFresh_csum.next ht))
  | clr => exact h.unlessFaulted h.cleared.next
  | hdr => exact h.unlessFaulted (h.needOpen fun _ ht => h.needFits (carriesFresh_hdr.next ht))
  | udpck => exact h.unlessFaulted (h.needOpen fun _ ht => h.needFits (carriesFresh_udpck.next ht))
  | ipck => exact h.unlessFaulted (h.needOpen fun _ ht => carriesFresh_sealPacket_ipPass.next ht)
  | pkt => exact h.unlessFaulted (h.needOpen fun _ ht => h.needFits (carriesFresh_packetBuilt.next ht))
  | srst => exact h.resetBlock.next

theorem execute (h : SameVisible s t) (v : Word) : EndAlike (execute v s) (execute v t) := by
  cases hd : decode v with
  | ok i => rw [execute_of_decode hd, execute_of_decode hd]; exact h.exec i
  | error r => rw [execute_of_reject hd, execute_of_reject hd]; exact h.raiseError .opcode

theorem regStore (h : SameVisible s t) (r : Reg) (v : Word) : EndAlike (regStore r v s) (regStore r v t) := by
  rw [Machine.regStore, Machine.regStore]
  split
  · exact h.execute v
  split
  · split
    · exact h.raiseError .width
    · exact (h.writeReg v r).next
  · exact h.raiseError .access

theorem regWrite (h : SameVisible s t) (n : BitVec 14) (v : Word) : EndAlike (regWrite n v s) (regWrite n v t) := by
  by_cases he : s.err = none
  · rw [regWrite_not_faulted n v he, regWrite_not_faulted n v (h.err_eq.trans he)]
    cases regOfNumber n with
    | none => exact h.raiseError .access
    | some r => exact h.regStore r v
  have he' : t.err ≠ none := h.err_eq ▸ he
  by_cases hnv : n = 0 ∧ v = 0x00000007
  · obtain ⟨rfl, rfl⟩ := hnv
    rw [regWrite_faulted_srst he, regWrite_faulted_srst he']
    exact h.exec .srst
  · rw [regWrite_faulted_ignored he hnv, regWrite_faulted_ignored he' hnv]
    exact h.next

theorem bufWrite (h : SameVisible s t) (a : BitVec 16) (b : Byte) : EndAlike (bufWrite a b s) (bufWrite a b t) := by
  refine h.unlessFaulted (h.needOpen fun n ht => ?_)
  have hbytes : t.params.bufBytes = s.params.bufBytes := congrArg Params.bufBytes h.params_eq
  rw [hbytes]
  split
  · exact h.raiseError .range
  · exact (carriesFresh_bufWrite a b).next ht

theorem transact (h : SameVisible s t) (x : Txn) : EndAlike (transact x s) (transact x t) := by
  cases x with
  | reset => exact h.resetBlock.next
  | regRead n => rw [Machine.transact, Machine.transact, h.regRead_eq]; exact h.respond _
  | regWrite n v => exact h.regWrite n v
  | bufRead a => rw [Machine.transact, Machine.transact, h.bufRead_eq]; exact h.respond _
  | bufWrite a b => exact h.bufWrite a b

theorem step (h : SameVisible s t) : EndAlike (step s) (step t) := by
  cases hp : s.pending with
  | nil =>
    rw [idleBlockHoldsItsState s hp, idleBlockHoldsItsState t (h.pending_eq.trans hp)]
    exact h.next
  | cons x rest =>
    rw [step_cons hp, step_cons (h.pending_eq.trans hp)]
    exact (h.setPending rest).transact x

end SameVisible

theorem run_succ_of_step {M : Host.Core} {s t : M.State} (k : Nat) (h : M.step s = .next t) :
    M.run (k + 1) s = M.run k t := by
  rw [Host.Core.run, h]

theorem SameVisible.run (h : SameVisible s t) (k : Nat) : EndAlike (core.run k s) (core.run k t) := by
  induction k generalizing s t with
  | zero => exact h.next
  | succ k ih =>
    obtain ⟨s', t', hs, ht, h'⟩ := h.step
    obtain ⟨u, v, hu, hv, huv⟩ := ih h'
    exact ⟨u, v, (run_succ_of_step (M := core) k hs).trans hu, (run_succ_of_step (M := core) k ht).trans hv, huv⟩

/-- Settles O50: any number of steps from states that show the same ends in states that show the same. -/
theorem unspecifiedBufferIsNeverObserved : Obligations.UnspecifiedBufferIsNeverObserved := by
  intro k s m n hp
  obtain ⟨s', t', hs, ht, h⟩ := (SameVisible.buffer m n hp).run k
  refine ⟨s', t', hs, ht, h.returned_eq, ?_⟩
  cases h with
  | fresh n' => exact .inl rfl
  | buffer m' n' hp' => exact .inr ⟨hp', rfl⟩

/-! ## Every transaction ends -/

/-- A step answers a next state, since a block ends alike with itself. -/
theorem exists_step_next (s : State) : ∃ t, step s = .next t := by
  obtain ⟨t, -, ht, -, -⟩ := (SameVisible.refl s).step
  exact ⟨t, ht⟩

/-- No command touches the parameters or what the host has still to be given. -/
theorem exec_params_pending (h : exec i s = .next t) : t.params = s.params ∧ t.pending = s.pending := by
  rcases exec_next_cases h with rfl | ⟨_, rfl⟩ | ⟨_, _, rfl⟩ | ⟨_, _, rfl⟩ | ⟨_, rfl⟩ | ⟨_, _, _, rfl⟩ |
    ⟨_, _, _, rfl⟩ | ⟨_, _, rfl⟩ | ⟨_, _, _, rfl⟩ <;> simp

theorem transact_params_pending (h : transact x s = .next t) : t.params = s.params ∧ t.pending = s.pending := by
  rcases transact_next h with rfl | ⟨_, rfl⟩ | ⟨_, rfl⟩ | ⟨_, rfl⟩ | ⟨_, _, _, _, hx⟩ | ⟨_, _, _, _, _, _, rfl⟩ |
    ⟨_, _, _, _, _, _, rfl⟩
  case inr.inr.inr.inr.inl => exact exec_params_pending hx
  all_goals simp

/-- A step keeps the parameters and accepts the oldest transaction. -/
theorem step_params_pending (h : step s = .next t) : t.params = s.params ∧ t.pending = s.pending.tail := by
  rcases step_next h with ⟨hp, rfl⟩ | ⟨x, rest, hp, hx⟩
  · exact ⟨rfl, by rw [hp, List.tail_nil]⟩
  · rw [hp, List.tail_cons]
    exact transact_params_pending hx

/-- Settles O9: a step answers, and what it answers has the oldest transaction accepted. -/
theorem everyTransactionEnds : Obligations.EveryTransactionEnds := by
  intro s
  obtain ⟨t, ht⟩ := exists_step_next s
  obtain ⟨-, hpending⟩ := step_params_pending ht
  exact ⟨t, ht, hpending⟩

/-- Settles O10: no transaction touches the parameters. -/
theorem parametersAreFixed : Obligations.ParametersAreFixed := by
  intro s t h
  obtain ⟨hparams, -⟩ := step_params_pending h
  exact hparams

/-! ## The finished packet -/

/-- The number 2 is the code of SEALED beside that of no error (10_state.md R35). -/
theorem statusNumber_eq_two_iff (s : State) : statusNumber s = 2 ↔ s.finished := by
  have hphase : (phaseCode s.phase).toNat = 2 ↔ s.phase = .sealed := by cases s.phase <;> decide
  have herr : (errField s.err).toNat = 0 ↔ s.err = none := by
    cases s.err with
    | none => decide
    | some e => cases e <;> decide
  rw [statusNumber_eq, State.finished, ← hphase, ← herr]
  omega

theorem regRead_status_eq_two_iff (s : State) : regRead 1 s = 0x00000002 ↔ s.finished := by
  rw [← statusNumber_eq_two_iff, ← regRead_status_toNat, ← BitVec.toNat_inj]
  rfl

/-- Settles O44: the value 2 of STATUS names SEALED and no error, and a finished packet is a sealed one. -/
theorem finishedPacketShowsInStatusAndStays : Obligations.FinishedPacketShowsInStatusAndStays := by
  refine ⟨regRead_status_eq_two_iff, fun s t ⟨hsealed, _⟩ h => ?_⟩
  rcases sealedPacketDoesNotChange s t hsealed h with ⟨hphase, hbuf⟩ | hreset
  · exact .inl ⟨hphase, fun a => by rw [hbuf]⟩
  · exact .inr hreset

/-! ## Reset -/

/-- Settles O2: both Reset and SRST answer `resetBlock`. -/
theorem resetTransactionResets : Obligations.ResetTransactionResets := fun _ _ hp =>
  ⟨_, (step_cons hp).trans (transact_reset _), resetFrom_resetBlock _, exec_srst _⟩

end Sys2Proof.Machine
end
